-- ==== Sys2Proof/Word.lean ====
section
/-! DEFINITION. The two bit-vector widths of the block (00_scope.md R8, 30_encoding.md R61). -/

namespace Sys2Proof

/-- A byte; bit 7 is the most significant (00_scope.md R8). -/
abbrev Byte := BitVec 8

/-- A command word, `cmd_word[31:0]` (30_encoding.md R60, R61). -/
abbrev Word := BitVec 32

end Sys2Proof
end

