-- ==== Sys2Proof/Syntax.lean ====
section
/-! DEFINITION. The thirteen commands (30_encoding.md R61; one constructor per row of opcode_table.json), and the
pseudo-instructions of the assembler (30_encoding.md R68). -/

namespace Sys2Proof

/-- A command with its operands as 30_encoding.md R63 assembles them: the zero-extended fields are natural numbers,
CMD and DATA are bytes. -/
inductive Instr where
  /-- Set the pixel at column x, row y (40_framebuffer.md R81). -/
  | setpix (x y : Nat)
  /-- Clear the pixel at column x, row y (40_framebuffer.md R82). -/
  | clrpix (x y : Nat)
  /-- Read the pixel at column x, row y (40_framebuffer.md R83). -/
  | getpix (x y : Nat)
  /-- Clear the framebuffer (40_framebuffer.md R84). -/
  | clrall
  /-- Shift every row one pixel right (41_shifter.md R111). -/
  | shr
  /-- Shift every row one pixel left (41_shifter.md R112). -/
  | shl
  /-- Write one register in every chip (42_chain_protocol.md R135). -/
  | bcast (cmd data : Byte)
  /-- Write one register in one chip (42_chain_protocol.md R136). -/
  | addr (chip : Nat) (cmd data : Byte)
  /-- Send one framebuffer row (42_chain_protocol.md R137). -/
  | refrow (row : Nat)
  /-- Send the whole framebuffer (42_chain_protocol.md R138). -/
  | refdisp
  /-- Set the intensity of every chip (42_chain_protocol.md R139). -/
  | setbrt (level : Nat)
  /-- Configure every chip (42_chain_protocol.md R140). -/
  | init
  /-- Read one framebuffer byte (40_framebuffer.md R85). -/
  | fbrd (index : Nat)
  deriving DecidableEq, Repr

/-- The pseudo-instructions (30_encoding.md R68); none has an encoding of its own. -/
inductive Pseudo where
  | putpix (x y : Nat) (v : Bool)
  | putcol (x : Nat) (b : Byte)
  | noopall
  | dispon
  | scrollr
  | scrolll
  deriving DecidableEq, Repr

end Sys2Proof
end

