-- ==== Sys2Proof/WellFormed.lean ====
section
/-! DEFINITION. A command is well formed when every operand fits its field (30_encoding.md R62, R67): these are the
commands that have a command word. An operand that fits but is out of the command's range is well formed; the hardware
rejects it when it runs. -/

namespace Sys2Proof

/-- The operands fit their fields: X and INDEX 16 bits, Y 4, CHIP 12, ROW 3, LEVEL 8 (30_encoding.md R62); CMD and
DATA are bytes by type. -/
def Instr.wellFormed : Instr → Bool
  | .setpix x y => decide (x < 65536) && decide (y < 16)
  | .clrpix x y => decide (x < 65536) && decide (y < 16)
  | .getpix x y => decide (x < 65536) && decide (y < 16)
  | .clrall => true
  | .shr => true
  | .shl => true
  | .bcast _ _ => true
  | .addr chip _ _ => decide (chip < 4096)
  | .refrow row => decide (row < 8)
  | .refdisp => true
  | .setbrt level => decide (level < 256)
  | .init => true
  | .fbrd index => decide (index < 65536)

end Sys2Proof
end

