-- ==== Sys2Proof/Decode.lean ====
section
/-! DEFINITION. Decoding and encoding of command words (30_encoding.md R61 to R65). -/

namespace Sys2Proof

/-- The word formats (30_encoding.md R62). -/
inductive Format where
  | z | p | b | a | r | l | i
  deriving DecidableEq, Repr

/-- The bits of a format that must be zero (30_encoding.md R65). -/
def Format.reservedMask : Format → Word
  | .z => 0x0FFFFFFF
  | .p => 0x0FF00000
  | .b => 0x0FFF0000
  | .a => 0x00000000
  | .r => 0x0FFFFFF8
  | .l => 0x0FFFFF00
  | .i => 0x0FFF0000

/-- Why a word is no command (30_encoding.md R64). -/
inductive IllegalWord where
  /-- OP is 0x0, 0xE or 0xF. -/
  | reservedOp
  /-- A reserved field of the format is not zero. -/
  | reservedField
  deriving DecidableEq, Repr

/-- Bits [hi:lo] of a word as an unsigned number, `zext(w[hi:lo])` (30_encoding.md R63). -/
def field (w : Word) (lo len : Nat) : Nat := (w.extractLsb' lo len).toNat

/-- OP = w[31:28] (30_encoding.md R61). -/
def opField (w : Word) : Nat := field w 28 4

/-- CMD = w[15:8] of formats B and A (30_encoding.md R63). -/
def cmdField (w : Word) : Byte := w.extractLsb' 8 8

/-- DATA = w[7:0] of formats B and A (30_encoding.md R63). -/
def dataField (w : Word) : Byte := w.extractLsb' 0 8

/-- The command `i` if the reserved bits of format `f` are zero in `w` (30_encoding.md R65). -/
def withFormat (f : Format) (w : Word) (i : Instr) : Except IllegalWord Instr :=
  if w &&& f.reservedMask = 0 then .ok i else .error .reservedField

/-- The decoder, total on 32-bit words (30_encoding.md R65). -/
def decode (w : Word) : Except IllegalWord Instr :=
  match opField w with
  | 0x1 => withFormat .p w (.setpix (field w 0 16) (field w 16 4))
  | 0x2 => withFormat .p w (.clrpix (field w 0 16) (field w 16 4))
  | 0x3 => withFormat .p w (.getpix (field w 0 16) (field w 16 4))
  | 0x4 => withFormat .z w .clrall
  | 0x5 => withFormat .z w .shr
  | 0x6 => withFormat .z w .shl
  | 0x7 => withFormat .b w (.bcast (cmdField w) (dataField w))
  | 0x8 => withFormat .a w (.addr (field w 16 12) (cmdField w) (dataField w))
  | 0x9 => withFormat .r w (.refrow (field w 0 3))
  | 0xA => withFormat .z w .refdisp
  | 0xB => withFormat .l w (.setbrt (field w 0 8))
  | 0xC => withFormat .z w .init
  | 0xD => withFormat .i w (.fbrd (field w 0 16))
  | _ => .error .reservedOp

/-- The word of a format P command (30_encoding.md R62). -/
def encodeP (op : BitVec 4) (x y : Nat) : Word :=
  op ++ 0#8 ++ BitVec.ofNat 4 y ++ BitVec.ofNat 16 x

/-- The word of a format Z command (30_encoding.md R62). -/
def encodeZ (op : BitVec 4) : Word := op ++ 0#28

/-- The encoder, from the patterns of 30_encoding.md R62. -/
def encode : Instr → Word
  | .setpix x y => encodeP 0x1 x y
  | .clrpix x y => encodeP 0x2 x y
  | .getpix x y => encodeP 0x3 x y
  | .clrall => encodeZ 0x4
  | .shr => encodeZ 0x5
  | .shl => encodeZ 0x6
  | .bcast cmd data => 0x7#4 ++ 0#12 ++ cmd ++ data
  | .addr chip cmd data => 0x8#4 ++ BitVec.ofNat 12 chip ++ cmd ++ data
  | .refrow row => 0x9#4 ++ 0#25 ++ BitVec.ofNat 3 row
  | .refdisp => encodeZ 0xA
  | .setbrt level => 0xB#4 ++ 0#20 ++ BitVec.ofNat 8 level
  | .init => encodeZ 0xC
  | .fbrd index => 0xD#4 ++ 0#12 ++ BitVec.ofNat 16 index

/-- One row of opcode_table.json: it matches a word when `w & mask = match` (30_encoding.md R65). -/
structure OpcodeRow where
  mnemonic : String
  fmt : Format
  pattern : Word
  mask : Word
  deriving DecidableEq, Repr

/-- The row matches the word (30_encoding.md R65). -/
def OpcodeRow.fits (r : OpcodeRow) (w : Word) : Bool := w &&& r.mask == r.pattern

/-- The row of a command, transcribed from opcode_table.json. -/
def Instr.row : Instr → OpcodeRow
  | .setpix _ _ => ⟨"SETPIX", .p, 0x10000000, 0xFFF00000⟩
  | .clrpix _ _ => ⟨"CLRPIX", .p, 0x20000000, 0xFFF00000⟩
  | .getpix _ _ => ⟨"GETPIX", .p, 0x30000000, 0xFFF00000⟩
  | .clrall => ⟨"CLRALL", .z, 0x40000000, 0xFFFFFFFF⟩
  | .shr => ⟨"SHR", .z, 0x50000000, 0xFFFFFFFF⟩
  | .shl => ⟨"SHL", .z, 0x60000000, 0xFFFFFFFF⟩
  | .bcast _ _ => ⟨"BCAST", .b, 0x70000000, 0xFFFF0000⟩
  | .addr _ _ _ => ⟨"ADDR", .a, 0x80000000, 0xF0000000⟩
  | .refrow _ => ⟨"REFROW", .r, 0x90000000, 0xFFFFFFF8⟩
  | .refdisp => ⟨"REFDISP", .z, 0xA0000000, 0xFFFFFFFF⟩
  | .setbrt _ => ⟨"SETBRT", .l, 0xB0000000, 0xFFFFFF00⟩
  | .init => ⟨"INIT", .z, 0xC0000000, 0xFFFFFFFF⟩
  | .fbrd _ => ⟨"FBRD", .i, 0xD0000000, 0xFFFF0000⟩

/-- All rows of opcode_table.json, in the table's order. -/
def opcodeTable : List OpcodeRow :=
  [Instr.setpix 0 0, .clrpix 0 0, .getpix 0 0, .clrall, .shr, .shl, .bcast 0 0, .addr 0 0 0,
    .refrow 0, .refdisp, .setbrt 0, .init, .fbrd 0].map Instr.row

/-- The host's reading of a table word: the low `nbits` bits of `w` (the bits above are zero), one 32-bit word. -/
def decodeTableWord (nbits w : Nat) : Option Instr :=
  (decode (BitVec.ofNat 32 (w % 2 ^ nbits))).toOption

end Sys2Proof
end

