-- ==== Sys2Proof/Config.lean ====
section
/-! DEFINITION. What is fixed when the block is built (00_scope.md R6, R7), and the free values: the values the spec
leaves open for the attached chips at power-up (10_state.md R33, 60_exceptions.md R189). -/

namespace Sys2Proof

/-- The x bound policy of the pixel commands (00_scope.md R6, 20_memory.md R43). -/
inductive XBound where
  | exact
  | legacy
  deriving DecidableEq, Repr

/-- NMAX, the largest chip count the command encoding can address (00_scope.md R6). -/
def nmax : Nat := 4096

/-- A legal chip count N. There is no value 0: "A model has no state for `N = 0`" (60_exceptions.md R180). -/
abbrev ChipCount := { n : Nat // 1 ≤ n ∧ n ≤ nmax }

/-- The construction parameters other than N, with the spec's defaults (00_scope.md R6).
PRESUMED: the default command and data bytes are the MAX7219 register map, which the spec itself marks as general
knowledge (93_implementation_defined.md section 2; log 3). Unsafe where a claim needs a default; the statements hold
for every value. -/
structure Options where
  xbound : XBound := .exact
  cmdNoop : Byte := 0x00
  dataNoop : Byte := 0x00
  cmdIntensity : Byte := 0x0A
  cmdScanlimit : Byte := 0x0B
  cmdShutdown : Byte := 0x0C
  cmdDisptest : Byte := 0x0F
  dataDisptestOff : Byte := 0x00
  dataShutdownOff : Byte := 0x01
  dataScanlimitAll : Byte := 0x07
  deriving DecidableEq, Repr

/-- All construction parameters of one instance: constants that no command reads or writes (10_state.md R26). -/
structure Config extends Options where
  chips : ChipCount
  deriving DecidableEq, Repr

/-- N, the chip count (00_scope.md R6). -/
def Config.n (c : Config) : Nat := c.chips.val

/-- FB_BYTES = W = 8·N: the framebuffer length in bytes and the columns of the pixel grid (00_scope.md R6). -/
abbrev Config.fbBytes (c : Config) : Nat := 8 * c.n

/-- BRIGHT_MAX, the largest legal brightness level (00_scope.md R6). -/
abbrev brightMax : Nat := 15

/-- Why construction fails. -/
inductive ConstructError where
  /-- N = 0: the spec's `InvalidConfiguration` (00_scope.md R7, 60_exceptions.md R180). Safe. -/
  | invalidConfiguration
  /-- N > NMAX: not a legal value (00_scope.md R6); the spec gives no name (DESIGN CHOICE, log 16). Safe. -/
  | aboveNmax
  deriving DecidableEq, Repr

/-- FREE VALUE (log 11): the bit at place `p` of the chain's shift line when the chips were powered up; place 0 is
bit 0 of the stage nearest the host. The spec: "`any value` until written" (93_implementation_defined.md). -/
opaque Config.linePowerUp : Nat → Bool

/-- FREE VALUE (log 11): the power-up value of the chip register with key 256·k + a (60_exceptions.md R189: "A model
must treat them as unknown until written"). -/
opaque Config.chipPowerUp : Nat → Byte

end Sys2Proof
end

