-- ==== Sys2Proof/Machine/State.lean ====
section
/-! DEFINITION. The state of the block, plain data (10_state.md), with the attached chain of the spec's reference model
(60_exceptions.md R187) and the host's coming events (70_reset_and_hazards.md R214). -/

namespace Sys2Proof.Machine

/-- One request of the block to the transport or the strobe line (42_chain_protocol.md R130). -/
inductive Token where
  /-- Transfer the byte, most-significant bit first. -/
  | xferMSB (b : Byte)
  /-- Transfer the byte, least-significant bit first. -/
  | xferLSB (b : Byte)
  /-- Drive the strobe line low. -/
  | strobeAssert
  /-- Drive the strobe line high. -/
  | strobeRelease
  deriving DecidableEq, Repr

/-- The attached chain (60_exceptions.md R187): external to the block, which never reads it (10_state.md R31). -/
structure Chain where
  /-- Number of chips physically in the chain (70_reset_and_hazards.md R213 point 1). -/
  len : Nat
  /-- The wire bits shifted in since power-up, newest first, at most 16·len of them: "one long shift register". -/
  wire : List Bool
  /-- The chip registers written since power-up, one cell per register, keyed 256·k + a. -/
  regs : List Host.Cell
  deriving DecidableEq, Repr

/-- What the outside world does next at the block's ports (70_reset_and_hazards.md R214, 30_encoding.md R60). A word is
accepted as soon as the block is ready for it; until then it waits at its port, and the events of the other ports go on
behind it (log 8). -/
inductive HostEvent where
  /-- A word is presented and accepted, and its command completes: every transfer is acknowledged and the response, if
  any, is taken (the command-level step of 00_scope.md R12 and 30_encoding.md R60). -/
  | command (w : Word)
  /-- A word is presented and accepted; none of its tokens has gone out yet, and its response has not been taken. -/
  | accept (w : Word)
  /-- `k` more tokens of the command in progress go out (42_chain_protocol.md R130). -/
  | proceed (k : Nat)
  /-- The host takes the response: `rsp_valid` and `rsp_ready` are both 1 (30_encoding.md R60). -/
  | takeResponse
  /-- `rst` is asserted, perhaps with a word presented in the same cycle, which is not accepted
  (70_reset_and_hazards.md R210, 60_exceptions.md R185). -/
  | reset (presented : Option Word)
  deriving DecidableEq, Repr

/-- The framebuffer's bytes in canonical form: indices strictly rising, no entry 0x00 (log 4). -/
abbrev Memory := List Host.Cell

/-- The whole state. `cfg`, `host` and `chain` are not the block's own state: constants of the instance (log 1), the
outside world's coming events (log 5), the reference chain (log 11). -/
structure State where
  /-- The construction parameters, constant for the life of the instance (10_state.md R26). -/
  cfg : Config
  /-- FB, the framebuffer (10_state.md R21). -/
  fb : Memory
  /-- STROBE: true = 1 = released (high), false = 0 = asserted (low) (10_state.md R27). -/
  strobe : Bool
  /-- OUT, the tokens sent so far, oldest first (10_state.md R28). -/
  out : List Token
  /-- RSP, the response of the last GETPIX or FBRD; absent before any (10_state.md R20, R29, R33). -/
  rsp : Option Byte
  /-- `rsp_valid`: a response is offered and has not been taken (30_encoding.md R60). -/
  rspValid : Bool
  /-- The tokens of the command in progress that have not gone out; empty = idle (10_state.md R30, R33). -/
  seq : List Token
  /-- The attached chain (60_exceptions.md R187). -/
  chain : Chain
  /-- The host's coming events, the next one first. -/
  host : List HostEvent
  deriving DecidableEq, Repr

/-- Where the machine would signal an error: nowhere. The block raises no run-time exception (60_exceptions.md R181,
R184), and a block that waits is stuck, "not a fault" (70_reset_and_hazards.md R219): its step answers the state
unchanged (DESIGN CHOICE, log 8). So this type has no constructor. -/
inductive Fault where
  deriving DecidableEq, Repr

/-- What the model gives no meaning. -/
inductive Refusal where
  /-- Raised by exec's refused arms only: the instruction has no meaning yet. Safe. -/
  | notModelled (mnemonic : String)
  /-- Raised by the response port (Port.lean): the host takes a response and none is offered
  (10_state.md R33: "a model must treat it as absent"; 93_implementation_defined.md: "treat as `refuse`"). Safe. -/
  | noResponse
  deriving DecidableEq, Repr

/-- The block just built with parameters `cfg`, in front of the chain `chain` (10_state.md R33,
70_reset_and_hazards.md R210): every framebuffer byte 0x00, STROBE = 1, idle, OUT empty, no response. -/
def State.ofConfig (cfg : Config) (chain : Chain) : State where
  cfg := cfg
  fb := []
  strobe := true
  out := []
  rsp := none
  rspValid := false
  seq := []
  chain := chain
  host := []

/-- The machine right after construction. DESIGN CHOICE (log 2, log 13): N = 2 and a chain of 2 chips, since the spec
makes N an argument of the model; the other parameters are the spec's defaults. Unsafe for a claim that needs N = 2;
the statements hold for every configuration. -/
def State.reset : State := State.ofConfig { chips := ⟨2, by decide⟩ } { len := 2, wire := [], regs := [] }

end Sys2Proof.Machine
end

