-- ==== Sys2Proof/Machine/Memory.lean ====
section
/-! DEFINITION. Lists of cells in canonical form: the framebuffer (10_state.md R21, 00_scope.md R9) and the written
chip registers. -/

namespace Sys2Proof.Machine

/-- The byte listed at `a`, if any. -/
def Cells.find? : List Host.Cell → Nat → Option Byte
  | [], _ => none
  | c :: r, a => if c.1 = a then some c.2 else Cells.find? r a

/-- The list without the entry at `a`. -/
def Cells.erase (m : List Host.Cell) (a : Nat) : List Host.Cell := m.filter (fun c => decide (c.1 ≠ a))

/-- A new cell put before the first larger address. -/
def Cells.insert : List Host.Cell → Nat → Byte → List Host.Cell
  | [], a, v => [(a, v)]
  | c :: r, a, v => if a < c.1 then (a, v) :: c :: r else c :: Cells.insert r a v

/-- The list with `v` as the one entry at `a`. -/
def Cells.set (m : List Host.Cell) (a : Nat) (v : Byte) : List Host.Cell := Cells.insert (Cells.erase m a) a v

/-- Addresses strictly rising. -/
abbrev Cells.sorted (m : List Host.Cell) : Prop := m.Pairwise (fun c d => c.1 < d.1)

/-- What a framebuffer byte that nothing has written reads as: the spec's reset value 0x00 (10_state.md R33; log 4). -/
def unlistedByte : Byte := 0x00

/-- The canonical form: addresses strictly rising, and no entry equal to what an unlisted address reads as. -/
abbrev Memory.wf (m : Memory) : Prop := Cells.sorted m ∧ ∀ c ∈ m, c.2 ≠ unlistedByte

/-- `FB[a]` (00_scope.md R9). -/
def Memory.read (m : Memory) (a : Nat) : Byte := (Cells.find? m a).getD unlistedByte

/-- `FB[a] <- v` (00_scope.md R9). -/
def Memory.write (m : Memory) (a : Nat) (v : Byte) : Memory :=
  if v = unlistedByte then Cells.erase m a else Cells.set m a v

/-- The memory of `k` bytes whose byte at `i` is `f i`: the parallel update `FB' <- f(FB)` (00_scope.md R9). -/
def Memory.ofFn (k : Nat) (f : Nat → Byte) : Memory :=
  ((List.range k).map (fun i => (i, f i))).filter (fun c => decide (c.2 ≠ unlistedByte))

end Sys2Proof.Machine
end

