-- ==== Sys2Proof/Machine/Chain.lean ====
section
/-! DEFINITION. Tokens on the wire (42_chain_protocol.md R130 to R132) and the spec's reference model of the attached
chain (60_exceptions.md R187, R188). -/

namespace Sys2Proof.Machine

/-- Bit reversal of a byte: `rev8(b)[k] = b[7-k]` (00_scope.md R8). -/
def rev8 (b : Byte) : Byte :=
  BitVec.ofBool (b.getLsbD 0) ++ BitVec.ofBool (b.getLsbD 1) ++ BitVec.ofBool (b.getLsbD 2) ++
    BitVec.ofBool (b.getLsbD 3) ++ BitVec.ofBool (b.getLsbD 4) ++ BitVec.ofBool (b.getLsbD 5) ++
    BitVec.ofBool (b.getLsbD 6) ++ BitVec.ofBool (b.getLsbD 7)

/-- The bits of a byte, bit 0 first. -/
def bitsLSB (b : Byte) : List Bool := (List.range 8).map b.getLsbD

/-- The serial bits a token puts on the wire, in order (42_chain_protocol.md R132). -/
def Token.wireBits : Token → List Bool
  | .xferMSB b => (bitsLSB b).reverse
  | .xferLSB b => bitsLSB b
  | .strobeAssert => []
  | .strobeRelease => []

/-- The strobe level after a token (42_chain_protocol.md R131). -/
def Token.levelAfter (t : Token) (strobe : Bool) : Bool :=
  match t with
  | .xferMSB _ => strobe
  | .xferLSB _ => strobe
  | .strobeAssert => false
  | .strobeRelease => true

/-- The strobe level after a list of tokens. -/
def strobeAfter (ts : List Token) (strobe : Bool) : Bool := ts.foldl (fun l t => t.levelAfter l) strobe

/-- The signals of one transfer request: `xfer_byte` and `xfer_lsb_first` (42_chain_protocol.md R130). -/
structure XferRequest where
  xferByte : Byte
  xferLsbFirst : Bool
  deriving DecidableEq, Repr

/-- The request on the transport port that a token is; the strobe tokens are none (42_chain_protocol.md R130). -/
def Token.request : Token → Option XferRequest
  | .xferMSB b => some ⟨b, false⟩
  | .xferLSB b => some ⟨b, true⟩
  | .strobeAssert => none
  | .strobeRelease => none

/-- One wire bit enters the chain and every stage shifts (60_exceptions.md R187), on the chain as one long line. -/
def Chain.shiftBit (c : Chain) (b : Bool) : Chain := { c with wire := (b :: c.wire).take (16 * c.len) }

/-- The wire bits enter in order. -/
def Chain.shiftBits (c : Chain) (bs : List Bool) : Chain := bs.foldl Chain.shiftBit c

/-- The bit at place `p` of the line; bit j of stage k is at place 16·k + j. A place that no wire bit has reached
holds what it held at power-up, moved along by the bits since (log 12). -/
def Chain.lineBit (c : Chain) (p : Nat) : Bool :=
  match c.wire[p]? with
  | some b => b
  | none => Config.linePowerUp (p - c.wire.length)

/-- The number whose bits are the list, bit 0 first. -/
def bitsToNat : List Bool → Nat
  | [] => 0
  | b :: r => b.toNat + 2 * bitsToNat r

/-- `S_k`, the 16-bit shift stage of position k (60_exceptions.md R187). -/
def Chain.stage (c : Chain) (k : Nat) : BitVec 16 :=
  BitVec.ofNat 16 (bitsToNat ((List.range 16).map (fun j => c.lineBit (16 * k + j))))

/-- The key of register `a` of the chip at position `k`. -/
def regKey (k : Nat) (a : Byte) : Nat := 256 * k + a.toNat

/-- `REG_k[a]` (60_exceptions.md R187); a register nothing has written holds its power-up value, a free value
(60_exceptions.md R189; log 11). -/
def Chain.reg (c : Chain) (k : Nat) (a : Byte) : Byte :=
  (Cells.find? c.regs (regKey k a)).getD (Config.chipPowerUp (regKey k a))

/-- Position `k` commits its stage: `REG_k[S_k[15:8]] <- S_k[7:0]` unless the command byte is CMD_NOOP
(60_exceptions.md R188; the whole command byte is the register address: log 14). -/
def Chain.commit (noop : Byte) (c : Chain) (regs : List Host.Cell) (k : Nat) : List Host.Cell :=
  if (c.stage k).extractLsb' 8 8 = noop then regs
  else Cells.set regs (regKey k ((c.stage k).extractLsb' 8 8)) ((c.stage k).extractLsb' 0 8)

/-- A rising edge: every position commits, the stages keep their contents (60_exceptions.md R188). -/
def Chain.latch (noop : Byte) (c : Chain) : Chain :=
  { c with regs := (List.range c.len).foldl (Chain.commit noop c) c.regs }

/-- What a token does to the chain, given the strobe level before it: its wire bits shift in, and a release after an
assert is a rising edge (42_chain_protocol.md R131, 60_exceptions.md R187, R188). -/
def Chain.observe (noop : Byte) (strobe : Bool) (c : Chain) (t : Token) : Chain :=
  match t with
  | .xferMSB b => c.shiftBits (Token.xferMSB b).wireBits
  | .xferLSB b => c.shiftBits (Token.xferLSB b).wireBits
  | .strobeAssert => c
  | .strobeRelease => if strobe then c else c.latch noop

end Sys2Proof.Machine
end

