-- ==== Sys2Proof/Machine/Ops.lean ====
section
/-! DEFINITION. The operations over the state that the commands share: framebuffer writes, `Emit`, `Respond`
(00_scope.md R9, R10), construction and its one exception (60_exceptions.md R180), and reset (70_reset_and_hazards.md
R210, R211). -/

namespace Sys2Proof.Machine

/-- N of this instance (00_scope.md R6). -/
abbrev State.n (s : State) : Nat := s.cfg.n

/-- `FB <- m`. -/
def State.setFb (s : State) (m : Memory) : State := { s with fb := m }

/-- `Respond(v)` (00_scope.md R10, 10_state.md R29). -/
def State.respond (s : State) (v : Byte) : State := { s with rsp := some v }

/-- `Emit(t)`: the token is appended to OUT, the strobe line follows it, and the attached chain sees it
(00_scope.md R10, 42_chain_protocol.md R130, R131). -/
def State.emit (s : State) (t : Token) : State :=
  { s with
    out := s.out ++ [t]
    strobe := t.levelAfter s.strobe
    chain := s.chain.observe s.cfg.cmdNoop s.strobe t }

/-- The tokens are emitted in order. -/
def State.emitAll (s : State) (ts : List Token) : State := ts.foldl State.emit s

/-- The word port is ready: no command in progress and no response waiting (30_encoding.md R60). -/
def State.cmdReady (s : State) : Bool := s.seq.isEmpty && !s.rspValid

/-- `rsp_data` while `rsp_valid` is 1 (30_encoding.md R60). -/
def State.rspData (s : State) : Option Byte := if s.rspValid then s.rsp else none

/-- Construction, `create(chipCount)` (70_reset_and_hazards.md R210): the block with `chips` chips in front of `chain`.
This is the block's only exception: N = 0 raises `InvalidConfiguration` and no instance exists (00_scope.md R7,
60_exceptions.md R180). N above NMAX is no legal value (log 16). -/
def State.construct (chips : Nat) (options : Options) (chain : Chain) : Except ConstructError State :=
  if h0 : chips = 0 then .error .invalidConfiguration
  else if h : chips ≤ nmax then
    .ok (State.ofConfig { toOptions := options, chips := ⟨chips, Nat.one_le_iff_ne_zero.mpr h0, h⟩ } chain)
  else .error .aboveNmax

/-- Reset, at idle or in the middle of a command (70_reset_and_hazards.md R210, R211): if STROBE was 0 the line is
driven high, so OUT gains a `StrobeRelease`; then every piece of the block's state takes its reset value. OUT keeps the
tokens already sent, the chain is not reset (10_state.md R33), the host goes on. -/
def State.applyReset (s : State) : State :=
  let t := if s.strobe then s else s.emit .strobeRelease
  { State.ofConfig s.cfg t.chain with out := t.out, host := s.host }

/-- The next `k` tokens of the command in progress go out (42_chain_protocol.md R130). -/
def State.proceed (s : State) (k : Nat) : State :=
  { s.emitAll (s.seq.take k) with seq := s.seq.drop k }

/-- A command whose whole effect takes `before` to `after` has been accepted and its tokens still have to go out; its
response, if it gives one, is offered (10_state.md R30, 30_encoding.md R60; log 6). -/
def State.inProgress (before after : State) (responds : Bool) : State :=
  { after with
    out := before.out
    strobe := before.strobe
    chain := before.chain
    seq := after.out.drop before.out.length
    rspValid := responds }

end Sys2Proof.Machine
end

