-- ==== Sys2Proof/Machine/Operands.lean ====
section
/-! DEFINITION. The operand forms: pixel coordinates (20_memory.md R41, R43), row and chip bytes (20_memory.md R44,
41_shifter.md R111, R112), and packets (42_chain_protocol.md R133, R134). -/

namespace Sys2Proof.Machine

/-- `chipIndex(x) = x / 8` (20_memory.md R41). -/
def chipIndex (x : Nat) : Nat := x / 8

/-- `idx(x, y) = chipIndex(x) + N·y` (20_memory.md R41). -/
def idx (n x y : Nat) : Nat := chipIndex x + n * y

/-- `bit(x) = 7 - (x mod 8)` (20_memory.md R41). -/
def bitOf (x : Nat) : Nat := 7 - x % 8

/-- `xok(x)`: the bound policy (20_memory.md R43; 90_conflicts.md C1 fixes LEGACY as x ≤ 7·N). -/
def xok (cfg : Config) (x : Nat) : Bool :=
  match cfg.xbound with
  | .exact => decide (x < 8 * cfg.n)
  | .legacy => decide (x ≤ 7 * cfg.n)

/-- `valid(x, y)` (20_memory.md R43). -/
def validPixel (cfg : Config) (x y : Nat) : Bool := decide (y ≤ 7) && xok cfg x

/-- `P(x, y) = FB[x / 8 + N·y][7 - (x mod 8)]` (10_state.md R22). -/
def State.pixel (s : State) (x y : Nat) : Bool := (s.fb.read (idx s.n x y)).getLsbD (bitOf x)

/-- `b | (1 << k)`: bit k set (40_framebuffer.md R80). -/
def setBit (b : Byte) (k : Nat) : Byte := b ||| (1#8 <<< k)

/-- `b & ~(1 << k)`: bit k cleared (40_framebuffer.md R80). -/
def clearBit (b : Byte) (k : Nat) : Byte := b &&& ~~~(1#8 <<< k)

/-- A bit as a byte, `zext_8` (00_scope.md R8). -/
def zextBit (b : Bool) : Byte := if b then 0x01 else 0x00

/-- Byte `i` after SHR, from the framebuffer before it (41_shifter.md R111). -/
def shrByte (n : Nat) (fb : Memory) (i : Nat) : Byte :=
  let carry := if i % n ≠ 0 then zextBit ((fb.read (i - 1)).getLsbD 0) else 0x00
  (fb.read i >>> 1) ||| (carry <<< 7)

/-- Byte `i` after SHL, from the framebuffer before it (41_shifter.md R112). -/
def shlByte (n : Nat) (fb : Memory) (i : Nat) : Byte :=
  let carry := if (i + 1) % n ≠ 0 then zextBit ((fb.read (i + 1)).getLsbD 7) else 0x00
  (fb.read i <<< 1) ||| carry

/-- `CMD_DIGIT(r) = r + 1`, the digit register of row r (00_scope.md R6). -/
def cmdDigit (row : Nat) : Byte := BitVec.ofNat 8 (row + 1)

/-- `SendPair(c, d)`: command byte, then data byte, both MSB first (42_chain_protocol.md R133). -/
def sendPair (c d : Byte) : List Token := [.xferMSB c, .xferMSB d]

/-- `SendPixPair(c, d)`: the data byte goes LSB first (42_chain_protocol.md R133). -/
def sendPixPair (c d : Byte) : List Token := [.xferMSB c, .xferLSB d]

/-- `SendNoop` (42_chain_protocol.md R133). -/
def sendNoop (cfg : Config) : List Token := sendPair cfg.cmdNoop cfg.dataNoop

/-- `Latch` (42_chain_protocol.md R134). -/
def latchTokens : List Token := [.strobeAssert, .strobeRelease]

/-- `repeat k times: ts` (00_scope.md R10). -/
def repeatTokens (k : Nat) (ts : List Token) : List Token := (List.replicate k ts).flatten

/-- The tokens of BCAST (42_chain_protocol.md R135). -/
def bcastTokens (cfg : Config) (cmd data : Byte) : List Token :=
  repeatTokens cfg.n (sendPair cmd data) ++ latchTokens

/-- The tokens of ADDR (42_chain_protocol.md R136). -/
def addrTokens (cfg : Config) (k : Nat) (cmd data : Byte) : List Token :=
  if k < cfg.n then
    repeatTokens (cfg.n - k - 1) (sendNoop cfg) ++ sendPair cmd data ++ repeatTokens k (sendNoop cfg) ++ latchTokens
  else []

/-- The tokens of REFROW: chips N-1 down to 0, then a latch (42_chain_protocol.md R137). -/
def refrowTokens (cfg : Config) (fb : Memory) (row : Nat) : List Token :=
  (List.range cfg.n).reverse.flatMap (fun c => sendPixPair (cmdDigit row) (fb.read (c + cfg.n * row))) ++ latchTokens

/-- The tokens of REFDISP: rows 0 to 7 in order (42_chain_protocol.md R138). -/
def refdispTokens (cfg : Config) (fb : Memory) : List Token := (List.range 8).flatMap (refrowTokens cfg fb)

/-- The tokens of SETBRT (42_chain_protocol.md R139). -/
def setbrtTokens (cfg : Config) (level : Nat) : List Token :=
  if level ≤ brightMax then bcastTokens cfg cfg.cmdIntensity (BitVec.ofNat 8 level) else []

/-- The tokens of INIT: three configuration broadcasts, then digits 1 to 8 cleared (42_chain_protocol.md R140). -/
def initTokens (cfg : Config) : List Token :=
  bcastTokens cfg cfg.cmdDisptest cfg.dataDisptestOff ++
    bcastTokens cfg cfg.cmdShutdown cfg.dataShutdownOff ++
    bcastTokens cfg cfg.cmdScanlimit cfg.dataScanlimitAll ++
    (List.range 8).flatMap (fun r => bcastTokens cfg (cmdDigit r) 0x00)

/-- The commands that give a response: GETPIX and FBRD (10_state.md R29). -/
def responds : Instr → Bool
  | .getpix _ _ => true
  | .fbrd _ => true
  | .setpix _ _ => false
  | .clrpix _ _ => false
  | .clrall => false
  | .shr => false
  | .shl => false
  | .bcast _ _ => false
  | .addr _ _ _ => false
  | .refrow _ => false
  | .refdisp => false
  | .setbrt _ => false
  | .init => false

end Sys2Proof.Machine
end

