-- ==== Sys2Proof/Machine/ChainProtocol.lean ====
section
/-! DEFINITION. The chain commands: BCAST, ADDR, REFROW, REFDISP, SETBRT, INIT (42_chain_protocol.md). None writes the
framebuffer (R144). -/

namespace Sys2Proof.Machine

/-- BCAST (42_chain_protocol.md R135). -/
def execBcast (cmd data : Byte) (s : State) : Host.Outcome State Fault Refusal :=
  .next (s.emitAll (bcastTokens s.cfg cmd data))

/-- ADDR; a chip index at or above N sends nothing (42_chain_protocol.md R136). -/
def execAddr (chip : Nat) (cmd data : Byte) (s : State) : Host.Outcome State Fault Refusal :=
  .next (s.emitAll (addrTokens s.cfg chip cmd data))

/-- REFROW (42_chain_protocol.md R137). -/
def execRefrow (row : Nat) (s : State) : Host.Outcome State Fault Refusal :=
  .next (s.emitAll (refrowTokens s.cfg s.fb row))

/-- REFDISP (42_chain_protocol.md R138). -/
def execRefdisp (s : State) : Host.Outcome State Fault Refusal :=
  .next (s.emitAll (refdispTokens s.cfg s.fb))

/-- SETBRT; a level above 15 sends nothing (42_chain_protocol.md R139). -/
def execSetbrt (level : Nat) (s : State) : Host.Outcome State Fault Refusal :=
  .next (s.emitAll (setbrtTokens s.cfg level))

/-- INIT (42_chain_protocol.md R140). -/
def execInit (s : State) : Host.Outcome State Fault Refusal :=
  .next (s.emitAll (initTokens s.cfg))

end Sys2Proof.Machine
end

