-- ==== Sys2Proof/Machine/Framebuffer.lean ====
section
/-! DEFINITION. The framebuffer commands: SETPIX, CLRPIX, GETPIX, CLRALL, FBRD (40_framebuffer.md). -/

namespace Sys2Proof.Machine

/-- SETPIX (40_framebuffer.md R81). -/
def execSetpix (x y : Nat) (s : State) : Host.Outcome State Fault Refusal :=
  .next <|
    if validPixel s.cfg x y then
      s.setFb (s.fb.write (idx s.n x y) (setBit (s.fb.read (idx s.n x y)) (bitOf x)))
    else s

/-- CLRPIX (40_framebuffer.md R82). -/
def execClrpix (x y : Nat) (s : State) : Host.Outcome State Fault Refusal :=
  .next <|
    if validPixel s.cfg x y then
      s.setFb (s.fb.write (idx s.n x y) (clearBit (s.fb.read (idx s.n x y)) (bitOf x)))
    else s

/-- GETPIX; an invalid coordinate responds 0x00 (40_framebuffer.md R83). -/
def execGetpix (x y : Nat) (s : State) : Host.Outcome State Fault Refusal :=
  .next (s.respond (if validPixel s.cfg x y then zextBit (s.pixel x y) else 0x00))

/-- CLRALL (40_framebuffer.md R84). -/
def execClrall (s : State) : Host.Outcome State Fault Refusal :=
  .next (s.setFb (Memory.ofFn s.cfg.fbBytes (fun _ => 0x00)))

/-- FBRD; an index outside the framebuffer responds 0x00 (40_framebuffer.md R85). -/
def execFbrd (i : Nat) (s : State) : Host.Outcome State Fault Refusal :=
  .next (s.respond (if i < s.cfg.fbBytes then s.fb.read i else 0x00))

end Sys2Proof.Machine
end

