-- ==== Sys2Proof/Machine/Shifter.lean ====
section
/-! DEFINITION. The shifter commands SHR and SHL (41_shifter.md): parallel updates of the whole framebuffer, whatever
XBOUND is (R116). -/

namespace Sys2Proof.Machine

/-- SHR (41_shifter.md R111). -/
def execShr (s : State) : Host.Outcome State Fault Refusal :=
  .next (s.setFb (Memory.ofFn s.cfg.fbBytes (shrByte s.n s.fb)))

/-- SHL (41_shifter.md R112). -/
def execShl (s : State) : Host.Outcome State Fault Refusal :=
  .next (s.setFb (Memory.ofFn s.cfg.fbBytes (shlByte s.n s.fb)))

end Sys2Proof.Machine
end

