-- ==== Sys2Proof/Machine/Dispatch.lean ====
section
/-! DEFINITION. One arm per command: the whole effect of a command that is accepted and completes (00_scope.md R12). -/

namespace Sys2Proof.Machine

def exec (i : Instr) (s : State) : Host.Outcome State Fault Refusal :=
  match i with
  | .setpix x y => Sys2Proof.Machine.execSetpix x y s
  | .clrpix x y => Sys2Proof.Machine.execClrpix x y s
  | .getpix x y => Sys2Proof.Machine.execGetpix x y s
  | .clrall => Sys2Proof.Machine.execClrall s
  | .shr => Sys2Proof.Machine.execShr s
  | .shl => Sys2Proof.Machine.execShl s
  | .bcast cmd data => Sys2Proof.Machine.execBcast cmd data s
  | .addr chip cmd data => Sys2Proof.Machine.execAddr chip cmd data s
  | .refrow row => Sys2Proof.Machine.execRefrow row s
  | .refdisp => Sys2Proof.Machine.execRefdisp s
  | .setbrt level => Sys2Proof.Machine.execSetbrt level s
  | .init => Sys2Proof.Machine.execInit s
  | .fbrd index => Sys2Proof.Machine.execFbrd index s

end Sys2Proof.Machine
end

