-- ==== Sys2Proof/Machine/Port.lean ====
section
/-! DEFINITION. The block's ports: what each event of the outside world does (30_encoding.md R60,
70_reset_and_hazards.md R210, R211, R214, R219). -/

namespace Sys2Proof.Machine

/-- The word is accepted and its command completes; an illegal word completes at once as a no-op
(30_encoding.md R64; log 7). -/
def runWord (w : Word) (s : State) : Host.Outcome State Fault Refusal :=
  match decode w with
  | .ok i => exec i s
  | .error _ => .next s

/-- The word is accepted; its command has its effect on the block, but its tokens have not gone out and its response
has not been taken (log 6). -/
def acceptWord (w : Word) (s : State) : Host.Outcome State Fault Refusal :=
  match decode w with
  | .ok i =>
    match exec i s with
    | .next t => .next (s.inProgress t (responds i))
    | .fault r => .fault r
    | .refused r => .refused r
  | .error _ => .next s

/-- The event presents a word at the command port. -/
def HostEvent.isWord : HostEvent → Bool
  | .command _ => true
  | .accept _ => true
  | .proceed _ => false
  | .takeResponse => false
  | .reset _ => false

/-- The event the block serves next, and the events that remain. A word needs `cmd_ready` = 1 to be accepted
(30_encoding.md R60); at a block that is not ready it keeps its place in the list, and the next event of another port
is served. With nothing but waiting words there is none: the block waits (70_reset_and_hazards.md R219). DESIGN CHOICE (log 8): the form of the waiting. -/
def nextEvent (ready : Bool) : List HostEvent → Option (HostEvent × List HostEvent)
  | [] => none
  | e :: rest =>
    if ready || !e.isWord then some (e, rest)
    else
      match nextEvent ready rest with
      | some (next, others) => some (next, e :: others)
      | none => none

/-- The host takes the response that is offered; with none offered there is nothing to read (log 9). -/
def takeResponse (s : State) : Host.Outcome State Fault Refusal :=
  if s.rspValid then .next { s with rspValid := false } else .refused .noResponse

/-- What one event of the outside world does to the block, a word being accepted (70_reset_and_hazards.md R214). -/
def serve (e : HostEvent) (s : State) : Host.Outcome State Fault Refusal :=
  match e with
  | .command w => runWord w s
  | .accept w => acceptWord w s
  | .proceed k => .next (s.proceed k)
  | .takeResponse => takeResponse s
  | .reset _ => .next s.applyReset

/-- The event has been taken off the list, and the others are `rest`. -/
def State.setHost (s : State) (rest : List HostEvent) : State := { s with host := rest }

/-- The word is the next thing the host presents, and the block is ready for it (log 18). -/
def State.presentWord (s : State) (w : Word) : State :=
  { s with host := .command w :: s.host, seq := [], rspValid := false }

end Sys2Proof.Machine
end

