-- ==== Sys2Proof/Machine/Step.lean ====
section
/-! DEFINITION. One step: the block serves the next event of the outside world that it can serve; with none it
waits (00_scope.md R12, 60_exceptions.md R194, 70_reset_and_hazards.md R219). -/

namespace Sys2Proof.Machine

/-- One step of the machine. With no event the block waits "for the next command, with no state lost"
(60_exceptions.md R194); with none but words it is not ready for, it waits too, for as long as that is so
(70_reset_and_hazards.md R219). -/
def step (s : State) : Host.Outcome State Fault Refusal :=
  match nextEvent s.cmdReady s.host with
  | none => .next s
  | some (e, rest) => serve e (s.setHost rest)

/-- `s` with the word of a table row presented at the command port, so that the next step runs it: the block fetches
nothing (00_scope.md R3), so a program comes from the host's events alone (log 5, log 18). -/
def State.withFetchWord (s : State) (nbits w : Nat) : State :=
  s.presentWord (BitVec.ofNat 32 (w % 2 ^ nbits))

end Sys2Proof.Machine
end

