-- ==== Sys2Proof/Machine/Assembler.lean ====
section
/-! DEFINITION. The assembler's syntax and the pseudo-instructions (30_encoding.md R67, R68). Source text is a list of
characters, one line at a time. What R67 leaves open of the spelling is log 17. -/

namespace Sys2Proof.Machine

/-- Why the assembler refuses a line. -/
inductive AsmError where
  | unknownMnemonic
  | wrongOperandCount
  | badNumber
  | badLabel
  /-- "An assembler refuses an operand that does not fit its field" (30_encoding.md R67). -/
  | operandTooLarge
  deriving DecidableEq, Repr

/-- The value of a digit character in decimal or hexadecimal. -/
def digitValue (c : Char) : Option Nat :=
  if 48 ≤ c.toNat ∧ c.toNat ≤ 57 then some (c.toNat - 48)
  else if 97 ≤ c.toNat ∧ c.toNat ≤ 102 then some (c.toNat - 87)
  else if 65 ≤ c.toNat ∧ c.toNat ≤ 70 then some (c.toNat - 55)
  else none

/-- The number the digits spell in the base, after the value `acc` of the digits before them. -/
def digitsValue (base acc : Nat) : List Char → Option Nat
  | [] => some acc
  | c :: r =>
    match digitValue c with
    | some d => if d < base then digitsValue base (base * acc + d) r else none
    | none => none

/-- "An operand is a decimal number or a hexadecimal number with a `0x` prefix" (30_encoding.md R67). -/
def parseNumber : List Char → Option Nat
  | [] => none
  | '0' :: 'x' :: [] => none
  | '0' :: 'x' :: c :: r => digitsValue 16 0 (c :: r)
  | c :: r => digitsValue 10 0 (c :: r)

/-- A space or a tab. -/
def isBlank (c : Char) : Bool := c == ' ' || c == '\t'

/-- The characters without the blanks at both ends. -/
def trim (cs : List Char) : List Char := ((cs.dropWhile isBlank).reverse.dropWhile isBlank).reverse

/-- The pieces between separators. -/
def splitAt (sep : Char) : List Char → List (List Char)
  | [] => [[]]
  | c :: r =>
    if c = sep then [] :: splitAt sep r
    else
      match splitAt sep r with
      | [] => [[c]]
      | p :: ps => (c :: p) :: ps

/-- A command with numeric operands by its lower-case mnemonic (30_encoding.md R67). -/
def buildInstr (name : List Char) (ops : List Nat) : Except AsmError Instr :=
  let fit (ok : Bool) (i : Instr) : Except AsmError Instr := if ok then .ok i else .error .operandTooLarge
  if name = ['s', 'e', 't', 'p', 'i', 'x'] then
    match ops with
    | [x, y] => fit (x ≤ 65535 && y ≤ 15) (.setpix x y)
    | _ => .error .wrongOperandCount
  else if name = ['c', 'l', 'r', 'p', 'i', 'x'] then
    match ops with
    | [x, y] => fit (x ≤ 65535 && y ≤ 15) (.clrpix x y)
    | _ => .error .wrongOperandCount
  else if name = ['g', 'e', 't', 'p', 'i', 'x'] then
    match ops with
    | [x, y] => fit (x ≤ 65535 && y ≤ 15) (.getpix x y)
    | _ => .error .wrongOperandCount
  else if name = ['c', 'l', 'r', 'a', 'l', 'l'] then
    match ops with
    | [] => .ok .clrall
    | _ => .error .wrongOperandCount
  else if name = ['s', 'h', 'r'] then
    match ops with
    | [] => .ok .shr
    | _ => .error .wrongOperandCount
  else if name = ['s', 'h', 'l'] then
    match ops with
    | [] => .ok .shl
    | _ => .error .wrongOperandCount
  else if name = ['b', 'c', 'a', 's', 't'] then
    match ops with
    | [cmd, data] => fit (cmd ≤ 255 && data ≤ 255) (.bcast (BitVec.ofNat 8 cmd) (BitVec.ofNat 8 data))
    | _ => .error .wrongOperandCount
  else if name = ['a', 'd', 'd', 'r'] then
    match ops with
    | [chip, cmd, data] =>
      fit (chip ≤ 4095 && cmd ≤ 255 && data ≤ 255) (.addr chip (BitVec.ofNat 8 cmd) (BitVec.ofNat 8 data))
    | _ => .error .wrongOperandCount
  else if name = ['r', 'e', 'f', 'r', 'o', 'w'] then
    match ops with
    | [row] => fit (row ≤ 7) (.refrow row)
    | _ => .error .wrongOperandCount
  else if name = ['r', 'e', 'f', 'd', 'i', 's', 'p'] then
    match ops with
    | [] => .ok .refdisp
    | _ => .error .wrongOperandCount
  else if name = ['s', 'e', 't', 'b', 'r', 't'] then
    match ops with
    | [level] => fit (level ≤ 255) (.setbrt level)
    | _ => .error .wrongOperandCount
  else if name = ['i', 'n', 'i', 't'] then
    match ops with
    | [] => .ok .init
    | _ => .error .wrongOperandCount
  else if name = ['f', 'b', 'r', 'd'] then
    match ops with
    | [i] => fit (i ≤ 65535) (.fbrd i)
    | _ => .error .wrongOperandCount
  else .error .unknownMnemonic

/-- `putpix X, Y, V` (30_encoding.md R68). -/
def putpix (x y : Nat) (v : Bool) : Instr := if v then .setpix x y else .clrpix x y

/-- The commands a pseudo-instruction stands for, in order (30_encoding.md R68). -/
def Pseudo.expand (cfg : Config) : Pseudo → List Instr
  | .putpix x y v => [putpix x y v]
  | .putcol x b => (List.range 8).map (fun r => putpix x r (b.getLsbD r))
  | .noopall => [.bcast cfg.cmdNoop cfg.dataNoop]
  | .dispon => [.bcast cfg.cmdShutdown cfg.dataShutdownOff]
  | .scrollr => [.shr, .refdisp]
  | .scrolll => [.shl, .refdisp]

/-- A pseudo-instruction with numeric operands by its name; `none` if the name is no pseudo-instruction's
(30_encoding.md R68). DESIGN CHOICE (log 21): R68 gives `putpix` an expansion for V = 1 and V = 0 only; any other V is
refused as an operand that does not fit, and so is a B above 255. -/
def buildPseudo (name : List Char) (ops : List Nat) : Option (Except AsmError Pseudo) :=
  let fit (ok : Bool) (p : Pseudo) : Except AsmError Pseudo := if ok then .ok p else .error .operandTooLarge
  if name = ['p', 'u', 't', 'p', 'i', 'x'] then
    some <| match ops with
      | [x, y, v] => fit (x ≤ 65535 && y ≤ 15 && v ≤ 1) (.putpix x y (v == 1))
      | _ => .error .wrongOperandCount
  else if name = ['p', 'u', 't', 'c', 'o', 'l'] then
    some <| match ops with
      | [x, b] => fit (x ≤ 65535 && b ≤ 255) (.putcol x (BitVec.ofNat 8 b))
      | _ => .error .wrongOperandCount
  else if name = ['n', 'o', 'o', 'p', 'a', 'l', 'l'] then
    some (if ops = [] then .ok .noopall else .error .wrongOperandCount)
  else if name = ['d', 'i', 's', 'p', 'o', 'n'] then
    some (if ops = [] then .ok .dispon else .error .wrongOperandCount)
  else if name = ['s', 'c', 'r', 'o', 'l', 'l', 'r'] then
    some (if ops = [] then .ok .scrollr else .error .wrongOperandCount)
  else if name = ['s', 'c', 'r', 'o', 'l', 'l', 'l'] then
    some (if ops = [] then .ok .scrolll else .error .wrongOperandCount)
  else none

/-- The commands of a mnemonic with its operands, a pseudo-instruction expanded. -/
def buildLine (cfg : Config) (name : List Char) (ops : List Nat) : Except AsmError (List Instr) :=
  match buildPseudo name ops with
  | some (.ok p) => .ok (Pseudo.expand cfg p)
  | some (.error e) => .error e
  | none =>
    match buildInstr name ops with
    | .ok i => .ok [i]
    | .error e => .error e

/-- A label's characters (log 17). -/
def isLabelChar (c : Char) : Bool := c.isAlphanum || c == '_'

/-- The label of a line, if it has one, and what follows it: "A label is a name followed by `:`"
(30_encoding.md R67). -/
def splitLabel (cs : List Char) : Except AsmError (Option (List Char) × List Char) :=
  match splitAt ':' cs with
  | [] => .ok (none, [])
  | [body] => .ok (none, body)
  | label :: body :: more =>
    if more = [] ∧ trim label ≠ [] ∧ (trim label).all isLabelChar then .ok (some (trim label), body)
    else .error .badLabel

/-- The numbers of an operand list. -/
def parseOperands : List (List Char) → Option (List Nat)
  | [] => some []
  | p :: ps =>
    match parseNumber (trim p), parseOperands ps with
    | some v, some vs => some (v :: vs)
    | _, _ => none

/-- One line of assembler text: its label and its commands. "`;` starts a comment that runs to the end of the line"
(30_encoding.md R67). -/
def assembleLine (cfg : Config) (line : List Char) : Except AsmError (Option (List Char) × List Instr) :=
  match splitLabel (line.takeWhile (fun c => c != ';')) with
  | .error e => .error e
  | .ok (label, body) =>
    match trim body with
    | [] => .ok (label, [])
    | c :: r =>
      let name := (c :: r).takeWhile (fun c => !isBlank c)
      let rest := trim ((c :: r).dropWhile (fun c => !isBlank c))
      match (if rest = [] then some [] else parseOperands (splitAt ',' rest)) with
      | none => .error .badNumber
      | some ops =>
        match buildLine cfg name ops with
        | .ok is => .ok (label, is)
        | .error e => .error e

end Sys2Proof.Machine
end

