-- ==== Sys2Proof/Machine/Flags.lean ====
section
/-! DEFINITION. The block has no flags (10_state.md R25). What a rejected command would set elsewhere is here only a
label "for its own trace", no state (60_exceptions.md R181). -/

namespace Sys2Proof.Machine

/-- The trace labels of the silent rejections (60_exceptions.md R181). -/
inductive Rejection where
  | rejY
  | rejX
  | rejIndex
  | rejChip
  | rejLevel
  | illegal
  deriving DecidableEq, Repr

/-- The rejection conditions of a pixel coordinate (60_exceptions.md R181). -/
def pixelRejections (cfg : Config) (x y : Nat) : List Rejection :=
  (if y ≤ 7 then [] else [.rejY]) ++ (if xok cfg x then [] else [.rejX])

/-- Every rejection condition that applies to a command (60_exceptions.md R181, R185). -/
def rejections (cfg : Config) : Instr → List Rejection
  | .setpix x y => pixelRejections cfg x y
  | .clrpix x y => pixelRejections cfg x y
  | .getpix x y => pixelRejections cfg x y
  | .clrall => []
  | .shr => []
  | .shl => []
  | .bcast _ _ => []
  | .addr chip _ _ => if chip < cfg.n then [] else [.rejChip]
  | .refrow _ => []
  | .refdisp => []
  | .setbrt level => if level ≤ brightMax then [] else [.rejLevel]
  | .init => []
  | .fbrd index => if index < cfg.fbBytes then [] else [.rejIndex]

/-- Every rejection condition that applies to a command word (60_exceptions.md R181). -/
def wordRejections (cfg : Config) (w : Word) : List Rejection :=
  match decode w with
  | .ok i => rejections cfg i
  | .error _ => [.illegal]

end Sys2Proof.Machine
end

