-- ==== Sys2Proof/Safety.lean ====
section
/-! DEFINITION. The terms in which claims are stated: the invariant of the machine, groups of packets on the output
(42_chain_protocol.md R141), and lists of commands run one after another. -/

namespace Sys2Proof.Machine

/-- The attached chain's data is in canonical form: at most 16·len wire bits, registers in rising order. -/
def Chain.Inv (c : Chain) : Prop := c.wire.length ≤ 16 * c.len ∧ Cells.sorted c.regs

/-- What every reachable state satisfies: the framebuffer is canonical and lies in 0..8·N-1 (10_state.md R21); an
offered response exists (10_state.md R29); once the tokens of the command in progress have gone out, STROBE is 1
(10_state.md R27). -/
def State.Inv (s : State) : Prop :=
  Memory.wf s.fb ∧ (∀ c ∈ s.fb, c.1 < s.cfg.fbBytes) ∧ (s.rspValid = true → s.rsp ≠ none) ∧
    strobeAfter s.seq s.strobe = true ∧ s.chain.Inv

/-- A packet: a command byte MSB first and a data byte in either bit order (42_chain_protocol.md R133). -/
def IsPacket (ts : List Token) : Prop := ∃ c d, ts = sendPair c d ∨ ts = sendPixPair c d

/-- A whole group: exactly `n` packets, then a latch (42_chain_protocol.md R141). -/
def IsGroup (n : Nat) (ts : List Token) : Prop :=
  ∃ packets : List (List Token), packets.length = n ∧ (∀ p ∈ packets, IsPacket p) ∧ ts = packets.flatten ++ latchTokens

/-- A token that transfers a byte. -/
def Token.isXfer : Token → Bool
  | .xferMSB _ => true
  | .xferLSB _ => true
  | .strobeAssert => false
  | .strobeRelease => false

/-- The commands run one after another, each to its completion. -/
def execAll : List Instr → State → Host.Outcome State Fault Refusal
  | [], s => .next s
  | i :: is, s =>
    match exec i s with
    | .next t => execAll is t
    | .fault r => .fault r
    | .refused r => .refused r

/-- The commands of the packet encoder (42_chain_protocol.md). -/
def isChainCommand : Instr → Bool
  | .bcast _ _ => true
  | .addr _ _ _ => true
  | .refrow _ => true
  | .refdisp => true
  | .setbrt _ => true
  | .init => true
  | .setpix _ _ => false
  | .clrpix _ _ => false
  | .getpix _ _ => false
  | .clrall => false
  | .shr => false
  | .shl => false
  | .fbrd _ => false

/-- The number of latches of a command (42_chain_protocol.md R143). -/
def latchCount (cfg : Config) : Instr → Nat
  | .bcast _ _ => 1
  | .addr chip _ _ => if chip < cfg.n then 1 else 0
  | .refrow _ => 1
  | .refdisp => 8
  | .setbrt level => if level ≤ 15 then 1 else 0
  | .init => 11
  | .setpix _ _ => 0
  | .clrpix _ _ => 0
  | .getpix _ _ => 0
  | .clrall => 0
  | .shr => 0
  | .shl => 0
  | .fbrd _ => 0

end Sys2Proof.Machine
end

