-- ==== Sys2Proof/Certificates/Slice0/Obligations.lean ====
section
/-! DEFINITION. The statements about the model, from the numbered rules of the spec. -/

open Sys2Proof Sys2Proof.Machine

/-! ## Framebuffer commands (40_framebuffer.md) -/

/-- R81, SETPIX: its words; at a valid coordinate bit `bit(x)` of byte `idx(x, y)` becomes 1 and every other bit of
every byte keeps its value; at an invalid one nothing changes; nothing but FB ever changes. -/
def Obligations.SetpixEffect : Prop :=
  (∀ x y, x < 65536 → y < 16 → decode (BitVec.ofNat 32 (0x10000000 + 65536 * y + x)) = .ok (.setpix x y)) ∧
  ∀ (s : State) (x y : Nat), ∃ t, exec (.setpix x y) s = .next t ∧ t = { s with fb := t.fb } ∧
    (validPixel s.cfg x y = false → t = s) ∧
    (validPixel s.cfg x y = true → ∀ i k, k < 8 →
      (t.fb.read i).getLsbD k =
        if i = x / 8 + s.n * y ∧ k = 7 - x % 8 then true else (s.fb.read i).getLsbD k)

/-- R82, CLRPIX: as SETPIX, with the addressed bit becoming 0. -/
def Obligations.ClrpixEffect : Prop :=
  (∀ x y, x < 65536 → y < 16 → decode (BitVec.ofNat 32 (0x20000000 + 65536 * y + x)) = .ok (.clrpix x y)) ∧
  ∀ (s : State) (x y : Nat), ∃ t, exec (.clrpix x y) s = .next t ∧ t = { s with fb := t.fb } ∧
    (validPixel s.cfg x y = false → t = s) ∧
    (validPixel s.cfg x y = true → ∀ i k, k < 8 →
      (t.fb.read i).getLsbD k =
        if i = x / 8 + s.n * y ∧ k = 7 - x % 8 then false else (s.fb.read i).getLsbD k)

/-- R83, GETPIX: the response is 0x01 for a lit pixel at a valid coordinate and 0x00 for every other case; nothing but
RSP changes. -/
def Obligations.GetpixEffect : Prop :=
  (∀ x y, x < 65536 → y < 16 → decode (BitVec.ofNat 32 (0x30000000 + 65536 * y + x)) = .ok (.getpix x y)) ∧
  ∀ (s : State) (x y : Nat),
    exec (.getpix x y) s = .next { s with
      rsp := some (if validPixel s.cfg x y ∧ (s.fb.read (x / 8 + s.n * y)).getLsbD (7 - x % 8) then 0x01 else 0x00) }

/-- R84, CLRALL: every framebuffer byte becomes 0x00; nothing but FB changes. -/
def Obligations.ClrallEffect : Prop :=
  decode 0x40000000 = .ok .clrall ∧
  ∀ s : State, ∃ t, exec .clrall s = .next t ∧ t = { s with fb := t.fb } ∧ ∀ i, i < 8 * s.n → t.fb.read i = 0x00

/-- R85, FBRD: the response is the byte at an index below 8·N and 0x00 above; nothing but RSP changes. -/
def Obligations.FbrdEffect : Prop :=
  (∀ i, i < 65536 → decode (BitVec.ofNat 32 (0xD0000000 + i)) = .ok (.fbrd i)) ∧
  ∀ (s : State) (i : Nat),
    exec (.fbrd i) s = .next { s with rsp := some (if i < 8 * s.n then s.fb.read i else 0x00) }

/-- R86 (the spec derives it from R81, R82, R42), locality: SETPIX and CLRPIX change at most the addressed bit,
whatever the coordinate; at a valid one it becomes 1 or 0, and SETPIX then CLRPIX restores every other pixel, and the
whole framebuffer exactly when the pixel was 0 before. -/
def Obligations.PixelWriteLocality : Prop :=
  (∀ (s : State) (x y : Nat), ∃ t c, exec (.setpix x y) s = .next t ∧ exec (.clrpix x y) s = .next c ∧
    ∀ i k, k < 8 → (i ≠ idx s.n x y ∨ k ≠ bitOf x) →
      (t.fb.read i).getLsbD k = (s.fb.read i).getLsbD k ∧ (c.fb.read i).getLsbD k = (s.fb.read i).getLsbD k) ∧
  ∀ (s : State) (x y : Nat), validPixel s.cfg x y = true →
    ∃ t c u, exec (.setpix x y) s = .next t ∧ exec (.clrpix x y) s = .next c ∧ exec (.clrpix x y) t = .next u ∧
      t.pixel x y = true ∧ c.pixel x y = false ∧ u.pixel x y = false ∧
      (∀ x' y', x' < 8 * s.n → y' < 8 → (x' ≠ x ∨ y' ≠ y) → u.pixel x' y' = s.pixel x' y') ∧
      ((∀ i, u.fb.read i = s.fb.read i) ↔ s.pixel x y = false)

/-- R87 (the spec derives it from R81, R82, R84, R86): pixel writes are idempotent, commute at different coordinates,
the last write at one coordinate wins, and CLRALL after any sequence of them gives the all-zero framebuffer. -/
def Obligations.PixelWritesIdempotentAndCommute : Prop :=
  (∀ (s : State) (x y : Nat) (v : Bool), ∃ t u, exec (putpix x y v) s = .next t ∧ exec (putpix x y v) t = .next u ∧
    ∀ i, u.fb.read i = t.fb.read i) ∧
  (∀ (s : State) (x y x' y' : Nat) (v v' : Bool), (x ≠ x' ∨ y ≠ y') →
    ∃ t u, execAll [putpix x y v, putpix x' y' v'] s = .next t ∧ execAll [putpix x' y' v', putpix x y v] s = .next u ∧
      ∀ i, t.fb.read i = u.fb.read i) ∧
  (∀ (s : State) (x y : Nat) (v : Bool), validPixel s.cfg x y = true →
    ∃ t, execAll [putpix x y (!v), putpix x y v] s = .next t ∧ t.pixel x y = v) ∧
  (∀ (s : State) (writes : List (Nat × Nat × Bool)),
    ∃ t, execAll (writes.map (fun p => putpix p.1 p.2.1 p.2.2) ++ [.clrall]) s = .next t ∧
      ∀ i, i < 8 * s.n → t.fb.read i = 0x00)

/-- R88: under LEGACY with N ≥ 2, a column above 7·N can be neither written by SETPIX and CLRPIX nor read by GETPIX,
FBRD still reads its byte, and SHR can light one. -/
def Obligations.LegacyColumnsUnreachable : Prop :=
  ∀ (s : State) (x y : Nat), s.cfg.xbound = .legacy → 2 ≤ s.n → 7 * s.n < x → x < 8 * s.n → y < 8 →
    exec (.setpix x y) s = .next s ∧ exec (.clrpix x y) s = .next s ∧
    exec (.getpix x y) s = .next { s with rsp := some 0x00 } ∧
    exec (.fbrd (x / 8 + s.n * y)) s = .next { s with rsp := some (s.fb.read (x / 8 + s.n * y)) } ∧
    ∃ t, execAll [.setpix (7 * s.n) y, .shr] s = .next t ∧ t.pixel (7 * s.n + 1) y = true

/-- R42 (the spec derives it from R41): the mapping from the grid to (byte, bit) pairs is a bijection with the inverse
the rule gives. -/
def Obligations.PixelAddressBijection : Prop :=
  ∀ cfg : Config,
    (∀ x y, x < 8 * cfg.n → y < 8 →
      idx cfg.n x y < 8 * cfg.n ∧ bitOf x < 8 ∧ idx cfg.n x y / cfg.n = y ∧
        8 * (idx cfg.n x y % cfg.n) + (7 - bitOf x) = x) ∧
    (∀ i k, i < 8 * cfg.n → k < 8 →
      8 * (i % cfg.n) + (7 - k) < 8 * cfg.n ∧ i / cfg.n < 8 ∧
        idx cfg.n (8 * (i % cfg.n) + (7 - k)) (i / cfg.n) = i ∧ bitOf (8 * (i % cfg.n) + (7 - k)) = k)

/-- R43: the bound policy, the columns LEGACY drops, and the default. -/
def Obligations.BoundPolicy : Prop :=
  (∀ (cfg : Config) (x y : Nat), cfg.xbound = .exact → (validPixel cfg x y = true ↔ x < 8 * cfg.n ∧ y < 8)) ∧
  (∀ (cfg : Config) (x y : Nat), cfg.xbound = .legacy → (validPixel cfg x y = true ↔ x ≤ 7 * cfg.n ∧ y ≤ 7)) ∧
  (∀ (cfg : Config) (x y : Nat), cfg.xbound = .legacy → x < 8 * cfg.n → y ≤ 7 →
    (validPixel cfg x y = false ↔ 7 * cfg.n + 1 ≤ x ∧ x ≤ 8 * cfg.n - 1)) ∧
  (∀ (cfg : Config) (x y : Nat), validPixel { cfg with xbound := .legacy } x y = true →
    validPixel { cfg with xbound := .exact } x y = true) ∧
  ({} : Options).xbound = .exact

/-! ## Shifter (41_shifter.md) -/

/-- R111, SHR: the parallel update, byte by byte; nothing but FB changes. -/
def Obligations.ShrEffect : Prop :=
  decode 0x50000000 = .ok .shr ∧
  ∀ s : State, ∃ t, exec .shr s = .next t ∧ t = { s with fb := t.fb } ∧
    ∀ i, i < 8 * s.n → t.fb.read i =
      (s.fb.read i >>> 1) |||
        ((if i % s.n ≠ 0 ∧ (s.fb.read (i - 1)).getLsbD 0 = true then 0x01#8 else 0x00#8) <<< 7)

/-- R112, SHL: the parallel update, byte by byte; nothing but FB changes. -/
def Obligations.ShlEffect : Prop :=
  decode 0x60000000 = .ok .shl ∧
  ∀ s : State, ∃ t, exec .shl s = .next t ∧ t = { s with fb := t.fb } ∧
    ∀ i, i < 8 * s.n → t.fb.read i =
      (s.fb.read i <<< 1) |||
        (if (i + 1) % s.n ≠ 0 ∧ (s.fb.read (i + 1)).getLsbD 7 = true then 0x01#8 else 0x00#8)

/-- R111 and R112, where the spec derives it: the source's loops, which update the bytes in place (descending for SHR,
ascending for SHL), give the framebuffer of the parallel update. -/
def Obligations.ShiftLoopsMatchParallelUpdate : Prop :=
  ∀ s : State,
    (∃ t, exec .shr s = .next t ∧ ∀ i, i < 8 * s.n → t.fb.read i =
      ((List.range (8 * s.n)).reverse.foldl (fun m b => Memory.write m b ((m.read b >>> 1) |||
        (if b % s.n ≠ 0 ∧ (m.read (b - 1)).getLsbD 0 = true then 0x80#8 else 0x00#8))) s.fb).read i) ∧
    (∃ t, exec .shl s = .next t ∧ ∀ i, i < 8 * s.n → t.fb.read i =
      ((List.range (8 * s.n)).foldl (fun m b => Memory.write m b ((m.read b <<< 1) |||
        (if (b + 1) % s.n ≠ 0 ∧ (m.read (b + 1)).getLsbD 7 = true then 0x01#8 else 0x00#8))) s.fb).read i)

/-- R113, SHR in pixel terms (the spec derives it from R111, R41). -/
def Obligations.ShrMovesPixelsRight : Prop :=
  ∀ s : State, ∃ t, exec .shr s = .next t ∧ ∀ y, y < 8 →
    t.pixel 0 y = false ∧ ∀ x, 1 ≤ x → x ≤ 8 * s.n - 1 → t.pixel x y = s.pixel (x - 1) y

/-- R114, SHL in pixel terms (the spec derives it from R112, R41). -/
def Obligations.ShlMovesPixelsLeft : Prop :=
  ∀ s : State, ∃ t, exec .shl s = .next t ∧ ∀ y, y < 8 →
    t.pixel (8 * s.n - 1) y = false ∧ ∀ x, x + 2 ≤ 8 * s.n → t.pixel x y = s.pixel (x + 1) y

/-- R115 (the spec derives it from R113, R114): round trips, k shifts in one direction, and 8·N shifts. -/
def Obligations.ShiftRoundTrips : Prop :=
  (∀ s : State, ∃ t, execAll [.shl, .shr] s = .next t ∧ ∀ y, y < 8 →
    t.pixel 0 y = false ∧ ∀ x, 1 ≤ x → x ≤ 8 * s.n - 1 → t.pixel x y = s.pixel x y) ∧
  (∀ s : State, ∃ t, execAll [.shr, .shl] s = .next t ∧ ∀ y, y < 8 →
    t.pixel (8 * s.n - 1) y = false ∧ ∀ x, x + 2 ≤ 8 * s.n → t.pixel x y = s.pixel x y) ∧
  (∀ (s : State) (k : Nat), ∃ r l,
    execAll (List.replicate k .shr) s = .next r ∧ execAll (List.replicate k .shl) s = .next l ∧
    ∀ x y, x < 8 * s.n → y < 8 →
      r.pixel x y = (if k ≤ x then s.pixel (x - k) y else false) ∧
      l.pixel x y = (if x + k < 8 * s.n then s.pixel (x + k) y else false)) ∧
  (∀ s : State, ∃ r l, execAll (List.replicate (8 * s.n) .shr) s = .next r ∧
    execAll (List.replicate (8 * s.n) .shl) s = .next l ∧
    ∀ x y, x < 8 * s.n → y < 8 → r.pixel x y = false ∧ l.pixel x y = false)

/-! ## Packet encoder (42_chain_protocol.md) -/

/-- R132 (the spec derives it from R130, R8): the wire bits of the transfer tokens, and `XferLSB(b)` puts the bits of
`XferMSB(rev8(b))` on the wire. -/
def Obligations.WireBitOrder : Prop :=
  ∀ b : Byte,
    (Token.xferMSB b).wireBits = [b.getLsbD 7, b.getLsbD 6, b.getLsbD 5, b.getLsbD 4,
      b.getLsbD 3, b.getLsbD 2, b.getLsbD 1, b.getLsbD 0] ∧
    (Token.xferLSB b).wireBits = [b.getLsbD 0, b.getLsbD 1, b.getLsbD 2, b.getLsbD 3,
      b.getLsbD 4, b.getLsbD 5, b.getLsbD 6, b.getLsbD 7] ∧
    (Token.xferLSB b).wireBits = (Token.xferMSB (rev8 b)).wireBits

/-- R135, with what the spec derives in R190, BCAST: N times the packet, then a latch, 2·N + 2 tokens; the framebuffer and the rest of the block's state
stay; in a chain of N chips every chip's register `cmd` holds `data` (unreversed) unless `cmd` is CMD_NOOP, and no
other register changes. -/
def Obligations.BcastEffect : Prop :=
  (∀ cmd data : Byte,
    decode (BitVec.ofNat 32 (0x70000000 + 256 * cmd.toNat + data.toNat)) = .ok (.bcast cmd data)) ∧
  ∀ (s : State) (cmd data : Byte), ∃ t, exec (.bcast cmd data) s = .next t ∧
    t = { s with out := t.out, strobe := true, chain := t.chain } ∧
    t.out = s.out ++ ((List.replicate s.n [Token.xferMSB cmd, .xferMSB data]).flatten ++
      [.strobeAssert, .strobeRelease]) ∧
    t.out.length = s.out.length + (2 * s.n + 2) ∧
    (s.chain.len = s.n → ∀ k a, k < s.n →
      t.chain.reg k a = if a = cmd ∧ cmd ≠ s.cfg.cmdNoop then data else s.chain.reg k a)

/-- R136, ADDR: N-k-1 no-op packets, the packet, k no-op packets, a latch; nothing at all when k ≥ N; with one chip
the same as BCAST; the rest of the block's state stays. -/
def Obligations.AddrEffect : Prop :=
  (∀ (k : Nat) (cmd data : Byte), k < 4096 →
    decode (BitVec.ofNat 32 (0x80000000 + 65536 * k + 256 * cmd.toNat + data.toNat)) = .ok (.addr k cmd data)) ∧
  ∀ (s : State) (k : Nat) (cmd data : Byte), ∃ t, exec (.addr k cmd data) s = .next t ∧
    (s.n ≤ k → t = s) ∧
    (k < s.n → t = { s with out := t.out, strobe := true, chain := t.chain } ∧
      t.out = s.out ++
        ((List.replicate (s.n - k - 1) [Token.xferMSB s.cfg.cmdNoop, .xferMSB s.cfg.dataNoop]).flatten ++
          [Token.xferMSB cmd, .xferMSB data] ++
          (List.replicate k [Token.xferMSB s.cfg.cmdNoop, .xferMSB s.cfg.dataNoop]).flatten ++
          [.strobeAssert, .strobeRelease]) ∧
      t.out.length = s.out.length + (2 * s.n + 2)) ∧
    (s.n = 1 → k = 0 → exec (.bcast cmd data) s = .next t)

/-- R137, REFROW: chips N-1 down to 0, the digit register's command byte MSB first and the framebuffer byte LSB first,
then a latch; the rest of the block's state stays. -/
def Obligations.RefrowEffect : Prop :=
  (∀ row, row < 8 → decode (BitVec.ofNat 32 (0x90000000 + row)) = .ok (.refrow row)) ∧
  ∀ (s : State) (row : Nat), ∃ t, exec (.refrow row) s = .next t ∧
    t = { s with out := t.out, strobe := true, chain := t.chain } ∧
    t.out = s.out ++ ((List.range s.n).reverse.flatMap (fun c =>
      [Token.xferMSB (BitVec.ofNat 8 (row + 1)), .xferLSB (s.fb.read (c + s.n * row))]) ++
        [.strobeAssert, .strobeRelease]) ∧
    t.out.length = s.out.length + (2 * s.n + 2)

/-- R138, REFDISP: the body of REFROW for rows 0 to 7 in order, 8·(2·N + 2) tokens; the rest of the block's state
stays. -/
def Obligations.RefdispEffect : Prop :=
  decode 0xA0000000 = .ok .refdisp ∧
  ∀ s : State, ∃ t, exec .refdisp s = .next t ∧
    t = { s with out := t.out, strobe := true, chain := t.chain } ∧
    execAll [.refrow 0, .refrow 1, .refrow 2, .refrow 3, .refrow 4, .refrow 5, .refrow 6, .refrow 7] s = .next t ∧
    t.out.length = s.out.length + 8 * (2 * s.n + 2)

/-- R139, SETBRT: a level up to 15 is BCAST of CMD_INTENSITY with the level itself; a level above sends nothing. -/
def Obligations.SetbrtEffect : Prop :=
  (∀ level, level < 256 → decode (BitVec.ofNat 32 (0xB0000000 + level)) = .ok (.setbrt level)) ∧
  ∀ (s : State) (level : Nat), ∃ t, exec (.setbrt level) s = .next t ∧
    (level ≤ 15 → exec (.bcast s.cfg.cmdIntensity (BitVec.ofNat 8 level)) s = .next t ∧
      t = { s with out := t.out, strobe := true, chain := t.chain } ∧
      t.out.length = s.out.length + (2 * s.n + 2)) ∧
    (15 < level → t = s)

/-- R140, INIT: the eleven broadcasts in order; 11·(2·N + 2) tokens; the framebuffer and the rest of the block's state
stay. -/
def Obligations.InitEffect : Prop :=
  decode 0xC0000000 = .ok .init ∧
  ∀ s : State, ∃ t, exec .init s = .next t ∧
    t = { s with out := t.out, strobe := true, chain := t.chain } ∧
    execAll [.bcast s.cfg.cmdDisptest s.cfg.dataDisptestOff, .bcast s.cfg.cmdShutdown s.cfg.dataShutdownOff,
      .bcast s.cfg.cmdScanlimit s.cfg.dataScanlimitAll, .bcast 1 0, .bcast 2 0, .bcast 3 0, .bcast 4 0,
      .bcast 5 0, .bcast 6 0, .bcast 7 0, .bcast 8 0] s = .next t ∧
    t.out.length = s.out.length + 11 * (2 * s.n + 2)

/-- R141 (the spec derives it from R135 to R140): every command, and so every list of commands, sends a sequence of
whole groups: exactly N packets, then a latch. -/
def Obligations.GroupInvariant : Prop :=
  ∀ (is : List Instr) (s : State), ∃ (t : State) (groups : List (List Token)), execAll is s = .next t ∧
    t.out = s.out ++ groups.flatten ∧ ∀ g ∈ groups, IsGroup s.n g

/-- R143 (the spec derives it from R135 to R140): the transfer tokens, strobe tokens and latches of every command, and
of an illegal word. -/
def Obligations.TokenCounts : Prop :=
  (∀ (i : Instr) (s : State), ∃ t sent, exec i s = .next t ∧ t.out = s.out ++ sent ∧
    sent.countP Token.isXfer = 2 * s.n * latchCount s.cfg i ∧
    sent.countP (fun k => !k.isXfer) = 2 * latchCount s.cfg i ∧
    sent.count .strobeRelease = latchCount s.cfg i) ∧
  ∀ (w : Word) (e : IllegalWord) (s : State), decode w = .error e → runWord w s = .next s

/-- R144: no chain command writes the framebuffer, and BCAST, ADDR, SETBRT and INIT do not read it: with any other
framebuffer they do the same. -/
def Obligations.ChainCommandsAndFramebuffer : Prop :=
  (∀ (i : Instr) (s : State), isChainCommand i = true → ∃ t, exec i s = .next t ∧ t.fb = s.fb) ∧
  ∀ (i : Instr) (s : State) (m : Memory), isChainCommand i = true → (∀ row, i ≠ .refrow row) → i ≠ .refdisp →
    ∃ t, exec i s = .next t ∧ exec i (s.setFb m) = .next (t.setFb m)

/-! ## The attached chain (60_exceptions.md section 4) -/

/-- R187 (the spec derives the second part): on every wire bit all stages shift at once; after a group of N packets
stage k holds packet N-1-k, command byte in bits 15..8, the data byte (reversed for a pixel packet) in bits 7..0,
whatever the chain held before. -/
def Obligations.ChainStagesShiftAndFill : Prop :=
  (∀ (c : Chain) (b : Bool) (k : Nat), k < c.len →
    (c.shiftBit b).stage k =
      ((c.stage k <<< 1) ||| BitVec.zeroExtend 16 (BitVec.ofBool
        (if k = 0 then b else (c.stage (k - 1)).getLsbD 15)))) ∧
  ∀ (noop : Byte) (strobe : Bool) (c : Chain) (packets : List (Byte × Byte × Bool)), c.len = packets.length →
    ∀ j (h : j < packets.length),
      (((packets.flatMap (fun p => if p.2.2 then sendPixPair p.1 p.2.1 else sendPair p.1 p.2.1)).foldl
        (Chain.observe noop strobe) c).stage (packets.length - 1 - j)) =
      packets[j].1 ++ (if packets[j].2.2 then rev8 packets[j].2.1 else packets[j].2.1)

/-- R188: at a rising edge every position commits its stage, except a no-op; the stages keep their contents; without a
rising edge nothing is committed. -/
def Obligations.ChainLatchCommits : Prop :=
  ∀ (noop : Byte) (c : Chain) (k : Nat) (a : Byte), k < c.len →
    (c.observe noop false .strobeRelease).reg k a =
      (if (c.stage k).extractLsb' 8 8 = a ∧ a ≠ noop then (c.stage k).extractLsb' 0 8 else c.reg k a) ∧
    (c.observe noop false .strobeRelease).stage k = c.stage k ∧
    c.observe noop true .strobeRelease = c ∧ c.observe noop false .strobeAssert = c ∧
    c.observe noop true .strobeAssert = c

/-- R190, ADDR: exactly register `cmd` of chip `k` holds `data`; every other register of every chip stays. -/
def Obligations.AddrReachesOneChip : Prop :=
  ∀ (s : State) (k : Nat) (cmd data : Byte), s.chain.len = s.n → ∃ t, exec (.addr k cmd data) s = .next t ∧
    ∀ p a, p < s.n →
      t.chain.reg p a = if p = k ∧ a = cmd ∧ cmd ≠ s.cfg.cmdNoop then data else s.chain.reg p a

/-- R145 (the spec derives it from R133, R137, R142, R41, R188): after REFROW the chip at position c holds `rev8(FB[c
+ N·y])` in digit register y+1, so register bit j is the pixel at column 8·c + j; no other register changes. (If the
parameter CMD_NOOP is that digit register's command byte, the chips ignore the row.) -/
def Obligations.RefrowShowsRow : Prop :=
  ∀ (s : State) (y : Nat), s.chain.len = s.n → y < 8 → ∃ t, exec (.refrow y) s = .next t ∧
    (∀ c a, c < s.n → t.chain.reg c a =
      if a = BitVec.ofNat 8 (y + 1) ∧ a ≠ s.cfg.cmdNoop then rev8 (s.fb.read (c + s.n * y)) else s.chain.reg c a) ∧
    (BitVec.ofNat 8 (y + 1) ≠ s.cfg.cmdNoop → ∀ c j, c < s.n → j < 8 →
      (t.chain.reg c (BitVec.ofNat 8 (y + 1))).getLsbD j = s.pixel (8 * c + j) y)

/-- R190, REFDISP: every chip's eight digit registers show its pixels, bit j of register y+1 the pixel at column
8·c + j, row y; no register outside 1..8 changes. -/
def Obligations.RefdispShowsFramebuffer : Prop :=
  ∀ s : State, s.chain.len = s.n → ∃ t, exec .refdisp s = .next t ∧
    (∀ c y j, c < s.n → y < 8 → j < 8 → BitVec.ofNat 8 (y + 1) ≠ s.cfg.cmdNoop →
      (t.chain.reg c (BitVec.ofNat 8 (y + 1))).getLsbD j = s.pixel (8 * c + j) y) ∧
    (∀ c a, c < s.n → (a = 0 ∨ 8 < a.toNat ∨ a = s.cfg.cmdNoop) → t.chain.reg c a = s.chain.reg c a)

/-- R190, INIT with the default constants (PRESUMED, log 3): the chip registers it sets, and no others. -/
def Obligations.InitConfiguresChips : Prop :=
  ∀ s : State, s.chain.len = s.n → s.cfg.toOptions = { xbound := s.cfg.xbound } → ∃ t, exec .init s = .next t ∧
    ∀ k a, k < s.n → t.chain.reg k a =
      if a = 0x0F then 0x00 else if a = 0x0C then 0x01 else if a = 0x0B then 0x07
      else if 1 ≤ a.toNat ∧ a.toNat ≤ 8 then 0x00 else s.chain.reg k a

/-- R190, SETBRT: a level up to 15 reaches every chip's intensity register; a level above changes nothing. -/
def Obligations.SetbrtSetsIntensity : Prop :=
  ∀ (s : State) (level : Nat), s.chain.len = s.n → ∃ t, exec (.setbrt level) s = .next t ∧
    ∀ k a, k < s.n → t.chain.reg k a =
      if level ≤ 15 ∧ a = s.cfg.cmdIntensity ∧ a ≠ s.cfg.cmdNoop then BitVec.ofNat 8 level else s.chain.reg k a

/-- R190, last point: every chain command is idempotent on the chips' registers. -/
def Obligations.ChainCommandsIdempotentOnChips : Prop :=
  ∀ (s : State) (i : Instr), s.chain.len = s.n → isChainCommand i = true →
    ∃ t u, exec i s = .next t ∧ exec i t = .next u ∧ ∀ k a, k < s.n → u.chain.reg k a = t.chain.reg k a

/-- R218, with the model's token by token view (log 6): after the first r+1 latches of a REFDISP the chips show new
rows 0..r and old rows r+1..7. -/
def Obligations.RefdispShowsRowsInOrder : Prop :=
  ∀ (s : State) (r : Nat), s.cmdReady = true → s.chain.len = s.n → r < 8 →
    ∃ a, acceptWord 0xA0000000 s = .next a ∧
      ∀ c y, c < s.n → y < 8 → BitVec.ofNat 8 (y + 1) ≠ s.cfg.cmdNoop →
        (a.proceed ((r + 1) * (2 * s.n + 2))).chain.reg c (BitVec.ofNat 8 (y + 1)) =
          if y ≤ r then rev8 (s.fb.read (c + s.n * y)) else s.chain.reg c (BitVec.ofNat 8 (y + 1))

/-- R31: the block never reads the chain. A step from a state that differs only in the chain does the same to
everything but the chain. (No step faults: Fault has no constructor.) -/
def Obligations.NoFeedbackFromChain : Prop :=
  ∀ (s : State) (c : Chain),
    (∀ t, step s = .next t → ∃ c', step { s with chain := c } = .next { t with chain := c' }) ∧
    (∀ r, step s = .refused r → step { s with chain := c } = .refused r)

/-! ## Encoding (30_encoding.md) -/

/-- Decoding an encoded well-formed command gives it back, every operand at every value its field admits. -/
def Obligations.DecodeOfEncode : Prop := ∀ i : Instr, i.wellFormed = true → decode (encode i) = .ok i

/-- A word that decodes to a command is that command's own word, and the command is well formed. -/
def Obligations.EncodeOfDecode : Prop :=
  ∀ (w : Word) (i : Instr), decode w = .ok i → i.wellFormed = true ∧ encode i = w

/-- R65: decoding is total and follows OP, then the reserved mask of the row's format; a row of the opcode table fits
exactly the words that decode to its command, and no two rows fit one word. -/
def Obligations.DecodeFollowsTable : Prop :=
  ∀ w : Word,
    (opField w = 0 ∨ 14 ≤ opField w → decode w = .error .reservedOp) ∧
    (∀ r ∈ opcodeTable, opField w = opField r.pattern →
      (w &&& r.fmt.reservedMask ≠ 0 → decode w = .error .reservedField) ∧
      (w &&& r.fmt.reservedMask = 0 → ∃ i, decode w = .ok i ∧ i.row = r)) ∧
    (∀ r ∈ opcodeTable, r.fits w = true ↔ ∃ i, decode w = .ok i ∧ i.row = r) ∧
    (∀ r ∈ opcodeTable, ∀ r' ∈ opcodeTable, r.fits w = true → r'.fits w = true → r = r')

/-- Words of the spec (95_test_vectors.md L2.1 and the rules' examples) decode as it says. -/
def Obligations.SampleWordsDecode : Prop :=
  decode 0x10000008 = .ok (.setpix 8 0) ∧ decode 0x20030002 = .ok (.clrpix 2 3) ∧
  decode 0x3000000F = .ok (.getpix 15 0) ∧ decode 0x70000A05 = .ok (.bcast 0x0A 0x05) ∧
  decode 0x8FFF0A07 = .ok (.addr 4095 0x0A 0x07) ∧ decode 0x90000003 = .ok (.refrow 3) ∧
  decode 0xB00000FF = .ok (.setbrt 255) ∧ decode 0xD000FFFF = .ok (.fbrd 65535) ∧
  decode 0x100F0000 = .ok (.setpix 0 15) ∧ decode 0xE0000000 = .error .reservedOp ∧
  decode 0x40000001 = .error .reservedField ∧ decode 0x10100000 = .error .reservedField

/-- R64: a word that fits no row of the opcode table is accepted and completes as a no-op: the block's state, OUT and
the response stay, and the next event is served next. -/
def Obligations.IllegalWordIsNoop : Prop :=
  ∀ (s : State) (w : Word) (rest : List HostEvent), s.host = .command w :: rest → s.cmdReady = true →
    (opField w = 0 ∨ opField w = 14 ∨ opField w = 15 ∨
      ∃ r ∈ opcodeTable, opField w = opField r.pattern ∧ w &&& r.fmt.reservedMask ≠ 0) →
    step s = .next { s with host := rest }

/-- R68: the pseudo-instructions and their commands. -/
def Obligations.PseudoInstructionsExpand : Prop :=
  ∀ (cfg : Config) (x y : Nat) (b : Byte),
    Pseudo.expand cfg (.putpix x y true) = [.setpix x y] ∧ Pseudo.expand cfg (.putpix x y false) = [.clrpix x y] ∧
    Pseudo.expand cfg (.putcol x b) =
      [putpix x 0 (b.getLsbD 0), putpix x 1 (b.getLsbD 1), putpix x 2 (b.getLsbD 2), putpix x 3 (b.getLsbD 3),
        putpix x 4 (b.getLsbD 4), putpix x 5 (b.getLsbD 5), putpix x 6 (b.getLsbD 6), putpix x 7 (b.getLsbD 7)] ∧
    Pseudo.expand cfg .noopall = [.bcast cfg.cmdNoop cfg.dataNoop] ∧
    Pseudo.expand cfg .dispon = [.bcast cfg.cmdShutdown cfg.dataShutdownOff] ∧
    Pseudo.expand cfg .scrollr = [.shr, .refdisp] ∧ Pseudo.expand cfg .scrolll = [.shl, .refdisp]

/-- R68 with R22: `putcol X, B` at a column the bound policy accepts draws the bitmap: pixel (X, r) becomes bit r of
B, and every other pixel stays. -/
def Obligations.PutcolDrawsColumn : Prop :=
  ∀ (s : State) (x : Nat) (b : Byte), xok s.cfg x = true →
    ∃ t, execAll (Pseudo.expand s.cfg (.putcol x b)) s = .next t ∧
      (∀ r, r < 8 → t.pixel x r = b.getLsbD r) ∧
      ∀ x' r, x' < 8 * s.n → r < 8 → x' ≠ x → t.pixel x' r = s.pixel x' r

/-- R67: an operand that fits its field assembles, one that does not is refused (the commands with operands). -/
def Obligations.AssemblerChecksOperands : Prop :=
  (∀ x y, buildInstr ['s', 'e', 't', 'p', 'i', 'x'] [x, y] =
    if x ≤ 65535 ∧ y ≤ 15 then .ok (.setpix x y) else .error .operandTooLarge) ∧
  (∀ x y, buildInstr ['c', 'l', 'r', 'p', 'i', 'x'] [x, y] =
    if x ≤ 65535 ∧ y ≤ 15 then .ok (.clrpix x y) else .error .operandTooLarge) ∧
  (∀ x y, buildInstr ['g', 'e', 't', 'p', 'i', 'x'] [x, y] =
    if x ≤ 65535 ∧ y ≤ 15 then .ok (.getpix x y) else .error .operandTooLarge) ∧
  (∀ c d, buildInstr ['b', 'c', 'a', 's', 't'] [c, d] =
    if c ≤ 255 ∧ d ≤ 255 then .ok (.bcast (BitVec.ofNat 8 c) (BitVec.ofNat 8 d)) else .error .operandTooLarge) ∧
  (∀ k c d, buildInstr ['a', 'd', 'd', 'r'] [k, c, d] =
    if k ≤ 4095 ∧ c ≤ 255 ∧ d ≤ 255 then .ok (.addr k (BitVec.ofNat 8 c) (BitVec.ofNat 8 d))
    else .error .operandTooLarge) ∧
  (∀ r, buildInstr ['r', 'e', 'f', 'r', 'o', 'w'] [r] = if r ≤ 7 then .ok (.refrow r) else .error .operandTooLarge) ∧
  (∀ l, buildInstr ['s', 'e', 't', 'b', 'r', 't'] [l] = if l ≤ 255 then .ok (.setbrt l) else .error .operandTooLarge) ∧
  (∀ i, buildInstr ['f', 'b', 'r', 'd'] [i] = if i ≤ 65535 then .ok (.fbrd i) else .error .operandTooLarge)

/-! ## Errors, construction, reset and the ports (60_exceptions.md, 70_reset_and_hazards.md) -/

/-- R180: N = 0 is refused as InvalidConfiguration; 1 ≤ N ≤ 4096 gives an instance with that N. -/
def Obligations.ConstructionRefusesZeroChips : Prop :=
  ∀ (n : Nat) (o : Options) (c : Chain),
    State.construct 0 o c = .error .invalidConfiguration ∧
    (1 ≤ n → n ≤ 4096 → ∃ s, State.construct n o c = .ok s ∧ s.n = n ∧ s.cfg.toOptions = o ∧ s.chain = c)

/-- R33: the values every piece of state has right after construction. -/
def Obligations.ConstructedState : Prop :=
  ∀ (n : Nat) (o : Options) (c : Chain) (s : State), State.construct n o c = .ok s →
    (∀ i, s.fb.read i = 0x00) ∧ s.strobe = true ∧ s.out = [] ∧ s.rsp = none ∧ s.rspValid = false ∧ s.seq = [] ∧
      s.cmdReady = true ∧ s.chain = c

/-- R210, with R211: reset, whenever it comes, has the effect of construction, which gives every piece of the block's
state its reset value; it keeps the tokens already sent, adds a StrobeRelease exactly when the line was low, and does
not accept a word presented with it. Construction with N = 0 fails instead. -/
def Obligations.ResetEffect : Prop :=
  ∀ (s : State) (presented : Option Word) (rest : List HostEvent), s.host = .reset presented :: rest →
    ∃ t, step s = .next t ∧ (∀ i, t.fb.read i = 0x00) ∧ t.strobe = true ∧ t.rsp = none ∧ t.rspValid = false ∧
      t.seq = [] ∧ t.cmdReady = true ∧ t.cfg = s.cfg ∧ t.host = rest ∧
      State.construct s.n s.cfg.toOptions t.chain = .ok { t with out := [], host := [] } ∧
      State.construct 0 s.cfg.toOptions t.chain = .error .invalidConfiguration ∧
      (s.strobe = true → t.out = s.out ∧ t.chain = s.chain) ∧
      (s.strobe = false → t.out = s.out ++ [.strobeRelease] ∧ t.chain = s.chain.latch s.cfg.cmdNoop)

/-- R211, with the model's events (log 5, log 6): a reset after any number k of a command's tokens: exactly the first
k stay sent, followed by the StrobeRelease of the command's own latch if the line was low, so that what was sent is
again a prefix of the command's tokens. -/
def Obligations.ResetDuringCommand : Prop :=
  ∀ (s : State) (w : Word) (i : Instr) (k : Nat) (rest : List HostEvent),
    s.host = .accept w :: .proceed k :: .reset none :: rest → s.cmdReady = true → s.strobe = true →
    decode w = .ok i →
    ∃ t u sent, Sys2Proof.core.run 3 s = .next t ∧ exec i s = .next u ∧ u.out = s.out ++ sent ∧
      (strobeAfter (sent.take k) true = true → t.out = s.out ++ sent.take k) ∧
      (strobeAfter (sent.take k) true = false →
        t.out = s.out ++ sent.take k ++ [.strobeRelease] ∧ t.out = s.out ++ sent.take (k + 1)) ∧
      (∀ a, t.fb.read a = 0x00) ∧ t.strobe = true ∧ t.cmdReady = true ∧ t.rsp = none ∧ t.host = rest

/-- R12, R30, with the model's events (log 6): a command whose tokens go out in any portions, and whose response is
then taken, ends in the state of the one atomic step. -/
def Obligations.AtomicStepIsSound : Prop :=
  ∀ (s : State) (w : Word) (i : Instr), s.cmdReady = true → decode w = .ok i →
    ∃ a t, acceptWord w s = .next a ∧ exec i s = .next t ∧
      (responds i = true → a.rspData = t.rsp) ∧
      ∀ portions : List Nat, t.out.length ≤ s.out.length + portions.sum →
        { portions.foldl State.proceed a with rspValid := false } = t

/-- R219: while tokens of a command have not gone out, cmd_ready is 0 and no step accepts a word: every presented word
still waits after it. With nothing but words to come the block waits forever; a reset behind them makes it ready, and
tokens that go out are the other way on. That a stuck block steps to itself and that words wait in the event list is
the model's form (log 8). -/
def Obligations.StalledTransportIsStuck : Prop :=
  ∀ (s : State), s.seq ≠ [] → s.cmdReady = false ∧
    (∀ t, step s = .next t → t.host.filter HostEvent.isWord = s.host.filter HostEvent.isWord) ∧
    ((∀ e ∈ s.host, e.isWord = true) → ∀ n, Sys2Proof.core.run n s = .next s) ∧
    (∀ (words : List HostEvent) (presented : Option Word) (rest : List HostEvent),
      (∀ e ∈ words, e.isWord = true) → s.host = words ++ .reset presented :: rest →
      step s = .next { s.applyReset with host := words ++ rest } ∧ s.applyReset.cmdReady = true) ∧
    (∀ (words : List HostEvent) (k : Nat) (rest : List HostEvent),
      (∀ e ∈ words, e.isWord = true) → s.host = words ++ .proceed k :: rest →
      step s = .next { s.proceed k with host := words ++ rest })

/-- R60, R214: while a response is offered, cmd_ready is 0 and no step accepts a word: every presented word still waits
after it. With nothing but words to come the block waits forever; taking the response makes it ready. That a stuck
block steps to itself and that words wait in the event list is the model's form (log 8). -/
def Obligations.ResponseMustBeTaken : Prop :=
  ∀ (s : State), s.seq = [] → s.rspValid = true → s.cmdReady = false ∧ s.rspData = s.rsp ∧
    (∀ t, step s = .next t → t.host.filter HostEvent.isWord = s.host.filter HostEvent.isWord) ∧
    ((∀ e ∈ s.host, e.isWord = true) → ∀ n, Sys2Proof.core.run n s = .next s) ∧
    (∀ (words rest : List HostEvent), (∀ e ∈ words, e.isWord = true) → s.host = words ++ .takeResponse :: rest →
      ∃ t, step s = .next t ∧ t = { s with rspValid := false, host := words ++ rest } ∧ t.cmdReady = true)

/-- R181 and R185: when each rejection condition applies; a command with any of them, whichever and however many, is a
no-op (GETPIX and FBRD respond 0x00); an illegal word is a no-op. -/
def Obligations.RejectionsAreSilent : Prop :=
  (∀ (cfg : Config) (x y : Nat), ∀ i ∈ [Instr.setpix x y, .clrpix x y, .getpix x y],
    (Rejection.rejY ∈ rejections cfg i ↔ 7 < y) ∧
    (Rejection.rejX ∈ rejections cfg i ↔
      (cfg.xbound = .exact ∧ 8 * cfg.n ≤ x) ∨ (cfg.xbound = .legacy ∧ 7 * cfg.n < x))) ∧
  (∀ (cfg : Config) (v : Nat) (cmd data : Byte),
    (Rejection.rejIndex ∈ rejections cfg (.fbrd v) ↔ 8 * cfg.n ≤ v) ∧
    (Rejection.rejChip ∈ rejections cfg (.addr v cmd data) ↔ cfg.n ≤ v) ∧
    (Rejection.rejLevel ∈ rejections cfg (.setbrt v) ↔ 15 < v)) ∧
  (∀ (cfg : Config) (w : Word), Rejection.illegal ∈ wordRejections cfg w ↔ ∃ e, decode w = .error e) ∧
  (∀ (i : Instr) (s : State), rejections s.cfg i ≠ [] →
    exec i s = .next (if responds i then { s with rsp := some 0x00 } else s)) ∧
  ∀ (w : Word) (s : State), Rejection.illegal ∈ wordRejections s.cfg w → runWord w s = .next s

/-! ## The machine -/

/-- In the model's events (log 5): a step with a word at the port of a ready block runs the command the word decodes
to. -/
def Obligations.StepRunsDecodedCommand : Prop :=
  ∀ (s : State) (w : Word) (i : Instr) (rest : List HostEvent), s.host = .command w :: rest → s.cmdReady = true →
    decode w = .ok i → step s = exec i { s with host := rest }

/-- R194, with the model's event list (log 5): with no event the block waits, with no state lost. -/
def Obligations.IdleBlockWaits : Prop := ∀ s : State, s.host = [] → step s = .next s

/-- R216 (the spec derives it from R50): a command sees every earlier command's writes: SETPIX and CLRPIX then GETPIX
or FBRD, SETPIX then REFROW, and SHR then REFDISP, which sends every shifted byte. -/
def Obligations.WritesAreSeenAtOnce : Prop :=
  (∀ (s : State) (x y : Nat), validPixel s.cfg x y = true →
    (∃ t, execAll [.setpix x y, .getpix x y] s = .next t ∧ t.rsp = some 0x01) ∧
    (∃ t, execAll [.clrpix x y, .getpix x y] s = .next t ∧ t.rsp = some 0x00) ∧
    (∃ t b, execAll [.setpix x y, .fbrd (idx s.n x y)] s = .next t ∧ t.rsp = some b ∧ b.getLsbD (bitOf x) = true) ∧
    (∃ t b, execAll [.setpix x y, .refrow y] s = .next t ∧ Token.xferLSB b ∈ t.out.drop s.out.length ∧
      b.getLsbD (bitOf x) = true)) ∧
  ∀ s : State, ∃ t, execAll [.shr, .refdisp] s = .next t ∧ ∀ i, i < 8 * s.n →
    Token.xferLSB ((s.fb.read i >>> 1) |||
      (if i % s.n ≠ 0 ∧ (s.fb.read (i - 1)).getLsbD 0 = true then 0x80#8 else 0x00#8)) ∈ t.out.drop s.out.length

/-- R26, R28: no step changes the construction parameters, and no step removes a token from OUT. -/
def Obligations.OutOnlyGrows : Prop :=
  ∀ s t : State, step s = .next t → t.cfg = s.cfg ∧ s.out <+: t.out

/-- Every step keeps the invariant (its canonical forms are the model's, log 4 and log 12): the framebuffer stays
canonical and inside 0..8·N-1, an offered response exists, STROBE is 1 once a command's tokens have gone out, and the
chain's data stays canonical. -/
def Obligations.StepKeepsInvariant : Prop := ∀ s t : State, s.Inv → step s = .next t → t.Inv

/-- The invariant holds at State.reset (N = 2, log 2), and of every construction in front of a canonical chain. -/
def Obligations.ResetHasInvariant : Prop :=
  State.reset.Inv ∧ ∀ n o c s, Chain.Inv c → State.construct n o c = .ok s → s.Inv

/-- R27: at every command boundary STROBE = 1. -/
def Obligations.StrobeHighAtCommandBoundary : Prop :=
  ∀ s : State, s.Inv → s.cmdReady = true →
    s.strobe = true ∧ ∀ i : Instr, ∃ t, exec i s = .next t ∧ t.strobe = true ∧ t.seq = []
end

