-- ==== Sys2Proof/Laws/Memory.lean ====
section
/-! SUPPORT. Cell lists: reading after writing, and the canonical form of the framebuffer. -/

namespace Sys2Proof.Machine

@[simp] theorem Cells.find?_nil (a : Nat) : Cells.find? [] a = none := rfl

theorem Cells.find?_cons (c : Host.Cell) (r : List Host.Cell) (a : Nat) :
    Cells.find? (c :: r) a = if c.1 = a then some c.2 else Cells.find? r a := rfl

theorem Cells.mem_of_find? {m : List Host.Cell} {a : Nat} {v : Byte} (h : Cells.find? m a = some v) : (a, v) ∈ m := by
  induction m with
  | nil => simp at h
  | cons c r ih =>
    rw [Cells.find?_cons] at h
    split at h
    · next hc => cases hc; cases h; simp
    · exact List.mem_cons_of_mem _ (ih h)

theorem Cells.find?_eq_none {m : List Host.Cell} {a : Nat} (h : ∀ c ∈ m, c.1 ≠ a) : Cells.find? m a = none := by
  induction m with
  | nil => rfl
  | cons c r ih =>
    rw [Cells.find?_cons, if_neg (h c (by simp))]
    exact ih fun d hd => h d (List.mem_cons_of_mem _ hd)

theorem Cells.find?_ne_none {m : List Host.Cell} {c : Host.Cell} (hc : c ∈ m) : Cells.find? m c.1 ≠ none := by
  induction m with
  | nil => simp at hc
  | cons d r ih =>
    rw [Cells.find?_cons]
    split
    · simp
    · next hd =>
      rcases List.mem_cons.mp hc with rfl | hc
      · exact absurd rfl hd
      · exact ih hc

theorem Cells.find?_erase (m : List Host.Cell) (a b : Nat) :
    Cells.find? (Cells.erase m a) b = if b = a then none else Cells.find? m b := by
  unfold Cells.erase
  induction m with
  | nil => simp
  | cons c r ih =>
    by_cases hc : c.1 = a
    · simp only [List.filter_cons, hc, ne_eq, not_true_eq_false, decide_false, Bool.false_eq_true, if_false]
      rw [ih, Cells.find?_cons]
      split <;> simp_all
      intro h; omega
    · simp only [List.filter_cons, ne_eq, hc, not_false_eq_true, decide_true, if_true]
      rw [Cells.find?_cons, ih, Cells.find?_cons]
      split <;> split <;> simp_all

theorem Cells.find?_insert {m : List Host.Cell} {a : Nat} (v : Byte) (b : Nat) (h : ∀ c ∈ m, c.1 ≠ a) :
    Cells.find? (Cells.insert m a v) b = if b = a then some v else Cells.find? m b := by
  induction m with
  | nil => simp only [Cells.insert, Cells.find?_cons, Cells.find?_nil, eq_comm]
  | cons c r ih =>
    unfold Cells.insert
    have hr := ih fun d hd => h d (List.mem_cons_of_mem _ hd)
    have hc : c.1 ≠ a := h c (by simp)
    split
    · simp only [Cells.find?_cons, eq_comm]
    · rw [Cells.find?_cons, hr, Cells.find?_cons]
      split <;> split <;> simp_all

theorem Cells.mem_erase {m : List Host.Cell} {a : Nat} {c : Host.Cell} :
    c ∈ Cells.erase m a ↔ c ∈ m ∧ c.1 ≠ a := by simp [Cells.erase]

theorem Cells.mem_insert {m : List Host.Cell} {a : Nat} {v : Byte} {c : Host.Cell} :
    c ∈ Cells.insert m a v ↔ c = (a, v) ∨ c ∈ m := by
  induction m with
  | nil => simp [Cells.insert]
  | cons d r ih =>
    unfold Cells.insert
    split
    · simp
    · simp only [List.mem_cons, ih]; tauto

/-- What `Cells.set` lists. -/
theorem Cells.mem_set {m : List Host.Cell} {a : Nat} {v : Byte} {c : Host.Cell} :
    c ∈ Cells.set m a v ↔ c = (a, v) ∨ (c ∈ m ∧ c.1 ≠ a) := by
  rw [Cells.set, Cells.mem_insert, Cells.mem_erase]

/-- A read after `Cells.set`: the new value at its address, the old one everywhere else, whatever the list. -/
theorem Cells.find?_set (m : List Host.Cell) (a b : Nat) (v : Byte) :
    Cells.find? (Cells.set m a v) b = if b = a then some v else Cells.find? m b := by
  rw [Cells.set, Cells.find?_insert v b fun c hc => (Cells.mem_erase.mp hc).2, Cells.find?_erase]
  split <;> simp_all

theorem Cells.sorted_erase {m : List Host.Cell} (a : Nat) (h : Cells.sorted m) : Cells.sorted (Cells.erase m a) :=
  List.Pairwise.filter _ h

theorem Cells.sorted_insert {m : List Host.Cell} {a : Nat} (v : Byte) (hs : Cells.sorted m) (h : ∀ c ∈ m, c.1 ≠ a) :
    Cells.sorted (Cells.insert m a v) := by
  induction m with
  | nil => simp [Cells.insert]
  | cons c r ih =>
    rw [Cells.sorted, List.pairwise_cons] at hs
    unfold Cells.insert
    split
    · next hlt =>
      rw [Cells.sorted, List.pairwise_cons, List.pairwise_cons]
      refine ⟨fun d hd => ?_, hs⟩
      rcases List.mem_cons.mp hd with rfl | hd
      · exact hlt
      · exact hlt.trans (hs.1 d hd)
    · next hge =>
      rw [Cells.sorted, List.pairwise_cons]
      refine ⟨fun d hd => ?_, ih hs.2 fun d hd => h d (List.mem_cons_of_mem _ hd)⟩
      have hc : c.1 ≠ a := h c (by simp)
      rcases Cells.mem_insert.mp hd with rfl | hd
      · simp only; omega
      · exact hs.1 d hd

/-- `Cells.set` keeps rising order. -/
theorem Cells.sorted_set {m : List Host.Cell} (a : Nat) (v : Byte) (hs : Cells.sorted m) :
    Cells.sorted (Cells.set m a v) :=
  Cells.sorted_insert v (Cells.sorted_erase a hs) fun _ hc => (Cells.mem_erase.mp hc).2

/-- A read after a framebuffer write (00_scope.md R9): the new value at its index, every other byte as before. -/
theorem Memory.read_write (m : Memory) (a b : Nat) (v : Byte) :
    (m.write a v).read b = if b = a then v else m.read b := by
  unfold Memory.write Memory.read
  split
  · next hv => rw [Cells.find?_erase]; split <;> simp [hv]
  · rw [Cells.find?_set]; split <;> simp

/-- A framebuffer write keeps the canonical form. -/
theorem Memory.wf_write {m : Memory} (a : Nat) (v : Byte) (h : m.wf) : (m.write a v).wf := by
  unfold Memory.write
  split
  · exact ⟨Cells.sorted_erase a h.1, fun c hc => h.2 c (Cells.mem_erase.mp hc).1⟩
  · next hv =>
    refine ⟨Cells.sorted_set a v h.1, fun c hc => ?_⟩
    rcases Cells.mem_set.mp hc with rfl | hc
    · exact hv
    · exact h.2 c hc.1

/-- A framebuffer write lists no index but its own and those listed before. -/
theorem Memory.lt_of_mem_write {m : Memory} {a k : Nat} {v : Byte} (ha : a < k) (h : ∀ c ∈ m, c.1 < k) :
    ∀ c ∈ m.write a v, c.1 < k := by
  intro c hc
  unfold Memory.write at hc
  split at hc
  · exact h c (Cells.mem_erase.mp hc).1
  · rcases Cells.mem_set.mp hc with rfl | hc
    · exact ha
    · exact h c hc.1

theorem Memory.mem_ofFn {k : Nat} {f : Nat → Byte} {c : Host.Cell} :
    c ∈ Memory.ofFn k f ↔ c.1 < k ∧ c.2 = f c.1 ∧ c.2 ≠ unlistedByte := by
  simp only [Memory.ofFn, List.mem_filter, List.mem_map, List.mem_range, decide_eq_true_eq]
  constructor
  · rintro ⟨⟨i, hi, rfl⟩, h⟩; exact ⟨hi, rfl, h⟩
  · rintro ⟨hlt, he, h⟩; exact ⟨⟨c.1, hlt, by rw [← he]⟩, h⟩

/-- The parallel update gives a canonical framebuffer. -/
theorem Memory.wf_ofFn (k : Nat) (f : Nat → Byte) : (Memory.ofFn k f).wf := by
  refine ⟨?_, fun c hc => (Memory.mem_ofFn.mp hc).2.2⟩
  refine List.Pairwise.filter _ ?_
  rw [List.pairwise_map]
  exact List.pairwise_lt_range

/-- A read after a parallel update: the function's value inside, 0x00 outside. -/
theorem Memory.read_ofFn (k : Nat) (f : Nat → Byte) (i : Nat) :
    (Memory.ofFn k f).read i = if i < k then f i else unlistedByte := by
  unfold Memory.read
  cases h : Cells.find? (Memory.ofFn k f) i with
  | some v =>
    obtain ⟨hlt, hv, -⟩ := Memory.mem_ofFn.mp (Cells.mem_of_find? h)
    simp_all
  | none =>
    split
    · next hlt =>
      by_contra hne
      have hmem : (i, f i) ∈ Memory.ofFn k f := Memory.mem_ofFn.mpr ⟨hlt, rfl, fun h0 => hne h0.symm⟩
      exact Cells.find?_ne_none hmem h
    · rfl
@[simp] theorem Memory.read_nil (i : Nat) : Memory.read [] i = 0 := rfl

end Sys2Proof.Machine
end

