-- ==== Sys2Proof/Laws/Chain.lean ====
section
/-! SUPPORT. Wire bits, the shift line and the latch of the attached chain. -/

namespace Sys2Proof.Machine

@[simp] theorem Chain.shiftBit_len (c : Chain) (b : Bool) : (c.shiftBit b).len = c.len := rfl
@[simp] theorem Chain.shiftBit_regs (c : Chain) (b : Bool) : (c.shiftBit b).regs = c.regs := rfl
theorem Chain.shiftBit_wire (c : Chain) (b : Bool) : (c.shiftBit b).wire = (b :: c.wire).take (16 * c.len) := rfl
@[simp] theorem Chain.latch_len (noop : Byte) (c : Chain) : (c.latch noop).len = c.len := rfl
@[simp] theorem Chain.latch_wire (noop : Byte) (c : Chain) : (c.latch noop).wire = c.wire := rfl

@[simp] theorem Chain.shiftBits_len (c : Chain) (bs : List Bool) : (c.shiftBits bs).len = c.len := by
  unfold Chain.shiftBits
  induction bs generalizing c with
  | nil => rfl
  | cons b r ih => simp [ih]

@[simp] theorem Chain.shiftBits_regs (c : Chain) (bs : List Bool) : (c.shiftBits bs).regs = c.regs := by
  unfold Chain.shiftBits
  induction bs generalizing c with
  | nil => rfl
  | cons b r ih => simp [ih]

/-- What is on the line after wire bits have entered: those bits, the newest first, then what was there. -/
theorem Chain.shiftBits_wire (c : Chain) (bs : List Bool) (h : bs ≠ []) :
    (c.shiftBits bs).wire = (bs.reverse ++ c.wire).take (16 * c.len) := by
  unfold Chain.shiftBits
  induction bs generalizing c with
  | nil => exact absurd rfl h
  | cons b r ih =>
    by_cases hr : r = []
    · subst hr; simp [Chain.shiftBit_wire]
    · rw [List.foldl_cons, ih _ hr, Chain.shiftBit_wire, Chain.shiftBit_len]
      rw [List.reverse_cons, List.append_assoc, List.singleton_append, List.take_append, List.take_append,
        List.take_take]
      congr 2
      omega

/-- The stages keep their contents at a latch (60_exceptions.md R188). -/
@[simp] theorem Chain.latch_stage (noop : Byte) (c : Chain) (k : Nat) : (c.latch noop).stage k = c.stage k := rfl

@[simp] theorem Chain.observe_len (noop : Byte) (strobe : Bool) (c : Chain) (t : Token) :
    (c.observe noop strobe t).len = c.len := by
  cases t <;> simp only [Chain.observe, Chain.shiftBits_len]
  split <;> rfl

/-- A line bit under the 16·len places that have been reached by wire bits. -/
theorem Chain.lineBit_of_lt (c : Chain) (p : Nat) (h : p < c.wire.length) : c.lineBit p = c.wire[p] := by
  simp [Chain.lineBit, List.getElem?_eq_getElem h]

theorem bitsToNat_lt (bs : List Bool) : bitsToNat bs < 2 ^ bs.length := by
  induction bs with
  | nil => simp [bitsToNat]
  | cons b r ih =>
    simp only [bitsToNat, List.length_cons, Nat.pow_succ]
    have := Bool.toNat_le b
    omega

theorem bitsToNat_testBit (bs : List Bool) (j : Nat) : (bitsToNat bs).testBit j = bs[j]?.getD false := by
  induction bs generalizing j with
  | nil => simp [bitsToNat]
  | cons b r ih =>
    cases j with
    | zero => cases b <;> simp [bitsToNat, Nat.testBit_zero]
    | succ j =>
      rw [Nat.testBit_succ]
      have : (bitsToNat (b :: r)) / 2 = bitsToNat r := by
        simp only [bitsToNat]; cases b <;> (simp; try omega)
      rw [this, ih]; simp

/-- Bit j of stage k is the bit at place 16·k + j of the line. -/
theorem Chain.stage_getLsbD (c : Chain) (k j : Nat) (h : j < 16) : (c.stage k).getLsbD j = c.lineBit (16 * k + j) := by
  unfold Chain.stage
  rw [BitVec.getLsbD_ofNat, bitsToNat_testBit]
  simp [h]

/-- Reading one register after one position has committed (60_exceptions.md R188). -/
theorem Chain.find?_commit (noop : Byte) (c : Chain) (regs : List Host.Cell) (k b : Nat) :
    Cells.find? (c.commit noop regs k) b =
      if (c.stage k).extractLsb' 8 8 ≠ noop ∧ b = regKey k ((c.stage k).extractLsb' 8 8) then
        some ((c.stage k).extractLsb' 0 8)
      else Cells.find? regs b := by
  unfold Chain.commit
  by_cases h : (c.stage k).extractLsb' 8 8 = noop
  · simp [h]
  · rw [if_neg h, Cells.find?_set]
    simp [h]

theorem regKey_inj {k k' : Nat} {a a' : Byte} (h : regKey k a = regKey k' a') : k = k' ∧ a = a' := by
  unfold regKey at h
  have h1 := a.isLt
  have h2 := a'.isLt
  exact ⟨by omega, BitVec.eq_of_toNat_eq (by omega)⟩

theorem Chain.find?_commits (noop : Byte) (c : Chain) (m : Nat) (regs : List Host.Cell) (k : Nat) (a : Byte) :
    Cells.find? ((List.range m).foldl (c.commit noop) regs) (regKey k a) =
      if k < m ∧ (c.stage k).extractLsb' 8 8 = a ∧ a ≠ noop then some ((c.stage k).extractLsb' 0 8)
      else Cells.find? regs (regKey k a) := by
  induction m with
  | zero => simp
  | succ m ih =>
    rw [List.range_succ, List.foldl_append, List.foldl_cons, List.foldl_nil, Chain.find?_commit, ih]
    by_cases hk : k = m
    · subst hk
      by_cases ha : (c.stage k).extractLsb' 8 8 = a
      · subst ha; simp
      · have : regKey k a ≠ regKey k ((c.stage k).extractLsb' 8 8) := fun h => ha (regKey_inj h).2.symm
        simp [this, ha]
    · have : regKey k a ≠ regKey m ((c.stage m).extractLsb' 8 8) := fun h => hk (regKey_inj h).1
      have hlt : (k < m + 1) ↔ k < m := by omega
      simp [this, hlt]

theorem Chain.sorted_commits (noop : Byte) (c : Chain) (ks : List Nat) (regs : List Host.Cell) (h : Cells.sorted regs) :
    Cells.sorted (ks.foldl (c.commit noop) regs) := by
  induction ks generalizing regs with
  | nil => exact h
  | cons k r ih =>
    refine ih _ ?_
    unfold Chain.commit
    split
    · exact h
    · exact Cells.sorted_set _ _ h

theorem Chain.inv_shiftBits {c : Chain} (bs : List Bool) (h : c.Inv) : (c.shiftBits bs).Inv := by
  by_cases hb : bs = []
  · subst hb; exact h
  · refine ⟨?_, by simpa using h.2⟩
    rw [Chain.shiftBits_wire _ _ hb, Chain.shiftBits_len, List.length_take]
    omega

/-- What a token does to the chain keeps its data canonical. -/
theorem Chain.inv_observe {c : Chain} (noop : Byte) (strobe : Bool) (t : Token) (h : c.Inv) :
    (c.observe noop strobe t).Inv := by
  cases t with
  | xferMSB b => exact Chain.inv_shiftBits _ h
  | xferLSB b => exact Chain.inv_shiftBits _ h
  | strobeAssert => exact h
  | strobeRelease =>
    change Chain.Inv (if strobe then c else c.latch noop)
    split
    · exact h
    · exact ⟨h.1, Chain.sorted_commits _ _ _ _ h.2⟩

end Sys2Proof.Machine
end

