-- ==== Sys2Proof/Laws/Decode.lean ====
section
/-! SUPPORT. Command words as numbers: fields, reserved fields and encoded words. -/

namespace Sys2Proof

/-- A field is a quotient and a remainder of the word. -/
theorem field_eq (w : Word) (lo len : Nat) : field w lo len = w.toNat / 2 ^ lo % 2 ^ len := by
  rw [field, BitVec.extractLsb'_toNat, Nat.shiftRight_eq_div_pow]

/-- The place and length of a format's reserved field (30_encoding.md R62). -/
def Format.reserved : Format → Nat × Nat
  | .z => (0, 28)
  | .p => (20, 8)
  | .b => (16, 12)
  | .a => (0, 0)
  | .r => (3, 25)
  | .l => (8, 20)
  | .i => (16, 12)

theorem and_mask_eq_zero_iff (w : Word) (lo len : Nat) (h : lo + len ≤ 32) :
    w &&& BitVec.ofNat 32 ((2 ^ len - 1) * 2 ^ lo) = 0 ↔ field w lo len = 0 := by
  have hm : ∀ j, (BitVec.ofNat 32 ((2 ^ len - 1) * 2 ^ lo)).getLsbD j = decide (lo ≤ j ∧ j < lo + len) := by
    intro j
    rw [BitVec.getLsbD_ofNat, Nat.mul_comm, ← Nat.pow_mul_testBit_aux]
    by_cases h1 : lo ≤ j <;> by_cases h2 : j < lo + len <;> simp [h1, h2] <;> omega
  have hf : field w lo len = 0 ↔ w.extractLsb' lo len = 0 := by
    rw [field]
    exact ⟨fun h => BitVec.eq_of_toNat_eq (by simpa using h), fun h => by rw [h]; rfl⟩
  rw [hf]
  constructor
  · intro hz
    apply BitVec.eq_of_getLsbD_eq
    intro i hi
    have hb := congrArg (fun v => BitVec.getLsbD v (lo + i)) hz
    simp only [BitVec.getLsbD_and, hm] at hb
    simp_all
  · intro hz
    apply BitVec.eq_of_getLsbD_eq
    intro i hi
    rw [BitVec.getLsbD_and, hm]
    by_cases hin : lo ≤ i ∧ i < lo + len
    · have hb := congrArg (fun v => BitVec.getLsbD v (i - lo)) hz
      simp only [BitVec.getLsbD_extractLsb', BitVec.ofNat_eq_ofNat, BitVec.getLsbD_zero] at hb
      have e : lo + (i - lo) = i := by omega
      have hlt : i - lo < len := by omega
      simp_all
    · simp [hin]
where
  Nat.pow_mul_testBit_aux {lo len j : Nat} :
      (decide (lo ≤ j) && (2 ^ len - 1).testBit (j - lo)) = (2 ^ lo * (2 ^ len - 1)).testBit j := by
    rw [Nat.testBit_two_pow_mul]

/-- The reserved-mask test of 30_encoding.md R65 says that the format's reserved field is zero (R62). -/
theorem and_reservedMask_eq_zero_iff (f : Format) (w : Word) :
    w &&& f.reservedMask = 0 ↔ field w f.reserved.1 f.reserved.2 = 0 := by
  rw [← and_mask_eq_zero_iff w f.reserved.1 f.reserved.2 (by cases f <;> decide)]
  cases f <;> exact Iff.rfl

/-- What `withFormat` answers, in terms of the format's reserved field. -/
theorem withFormat_eq (f : Format) (w : Word) (i : Instr) :
    withFormat f w i = if field w f.reserved.1 f.reserved.2 = 0 then .ok i else .error .reservedField := by
  unfold withFormat
  by_cases h : w &&& f.reservedMask = 0
  · rw [if_pos h, if_pos ((and_reservedMask_eq_zero_iff f w).mp h)]
  · rw [if_neg h, if_neg (mt (and_reservedMask_eq_zero_iff f w).mpr h)]

theorem toNat_append_eq {m n : Nat} (a : BitVec m) (b : BitVec n) :
    (a ++ b).toNat = a.toNat * 2 ^ n + b.toNat := by
  rw [BitVec.toNat_append, ← Nat.shiftLeft_add_eq_or_of_lt b.isLt, Nat.shiftLeft_eq]

theorem encodeP_toNat (op : BitVec 4) (x y : Nat) :
    (encodeP op x y).toNat = op.toNat * 2 ^ 28 + y % 16 * 2 ^ 16 + x % 65536 := by
  simp only [encodeP, toNat_append_eq, BitVec.toNat_ofNat]
  omega

theorem encodeZ_toNat (op : BitVec 4) : (encodeZ op).toNat = op.toNat * 2 ^ 28 := by
  simp only [encodeZ, toNat_append_eq, BitVec.toNat_ofNat]
  omega

theorem encode_bcast_toNat (cmd data : Byte) :
    (encode (.bcast cmd data)).toNat = 7 * 2 ^ 28 + cmd.toNat * 2 ^ 8 + data.toNat := by
  simp only [encode, toNat_append_eq, BitVec.toNat_ofNat]
  omega

theorem encode_addr_toNat (chip : Nat) (cmd data : Byte) :
    (encode (.addr chip cmd data)).toNat = 8 * 2 ^ 28 + chip % 4096 * 2 ^ 16 + cmd.toNat * 2 ^ 8 + data.toNat := by
  simp only [encode, toNat_append_eq, BitVec.toNat_ofNat]
  omega

theorem encode_refrow_toNat (row : Nat) : (encode (.refrow row)).toNat = 9 * 2 ^ 28 + row % 8 := by
  simp only [encode, toNat_append_eq, BitVec.toNat_ofNat]
  omega

theorem encode_setbrt_toNat (level : Nat) : (encode (.setbrt level)).toNat = 11 * 2 ^ 28 + level % 256 := by
  simp only [encode, toNat_append_eq, BitVec.toNat_ofNat]
  omega

theorem encode_fbrd_toNat (index : Nat) : (encode (.fbrd index)).toNat = 13 * 2 ^ 28 + index % 65536 := by
  simp only [encode, toNat_append_eq, BitVec.toNat_ofNat]
  omega

end Sys2Proof
end

