-- ==== Sys2Proof/Laws/State.lean ====
section
/-! SUPPORT. One lemma per field per update of the state. -/

namespace Sys2Proof

/-- "N ≥ 1" (00_scope.md R6, R7). -/
theorem Config.n_pos (c : Config) : 0 < c.n := c.chips.2.1

/-- "N ≤ NMAX" (00_scope.md R6). -/
theorem Config.n_le (c : Config) : c.n ≤ 4096 := c.chips.2.2

@[simp] theorem Config.fbBytes_eq (c : Config) : c.fbBytes = 8 * c.n := rfl

end Sys2Proof

namespace Sys2Proof.Machine

@[simp] theorem State.n_eq (s : State) : s.n = s.cfg.n := rfl
@[simp] theorem State.setFb_cfg (s : State) (m : Memory) : (s.setFb m).cfg = s.cfg := rfl
@[simp] theorem State.setFb_fb (s : State) (m : Memory) : (s.setFb m).fb = m := rfl
@[simp] theorem State.setFb_strobe (s : State) (m : Memory) : (s.setFb m).strobe = s.strobe := rfl
@[simp] theorem State.setFb_out (s : State) (m : Memory) : (s.setFb m).out = s.out := rfl
@[simp] theorem State.setFb_rsp (s : State) (m : Memory) : (s.setFb m).rsp = s.rsp := rfl
@[simp] theorem State.setFb_rspValid (s : State) (m : Memory) : (s.setFb m).rspValid = s.rspValid := rfl
@[simp] theorem State.setFb_seq (s : State) (m : Memory) : (s.setFb m).seq = s.seq := rfl
@[simp] theorem State.setFb_chain (s : State) (m : Memory) : (s.setFb m).chain = s.chain := rfl
@[simp] theorem State.setFb_host (s : State) (m : Memory) : (s.setFb m).host = s.host := rfl

@[simp] theorem State.respond_cfg (s : State) (v : Byte) : (s.respond v).cfg = s.cfg := rfl
@[simp] theorem State.respond_fb (s : State) (v : Byte) : (s.respond v).fb = s.fb := rfl
@[simp] theorem State.respond_strobe (s : State) (v : Byte) : (s.respond v).strobe = s.strobe := rfl
@[simp] theorem State.respond_out (s : State) (v : Byte) : (s.respond v).out = s.out := rfl
@[simp] theorem State.respond_rsp (s : State) (v : Byte) : (s.respond v).rsp = some v := rfl
@[simp] theorem State.respond_rspValid (s : State) (v : Byte) : (s.respond v).rspValid = s.rspValid := rfl
@[simp] theorem State.respond_seq (s : State) (v : Byte) : (s.respond v).seq = s.seq := rfl
@[simp] theorem State.respond_chain (s : State) (v : Byte) : (s.respond v).chain = s.chain := rfl
@[simp] theorem State.respond_host (s : State) (v : Byte) : (s.respond v).host = s.host := rfl

@[simp] theorem State.emit_cfg (s : State) (t : Token) : (s.emit t).cfg = s.cfg := rfl
@[simp] theorem State.emit_fb (s : State) (t : Token) : (s.emit t).fb = s.fb := rfl
@[simp] theorem State.emit_strobe (s : State) (t : Token) : (s.emit t).strobe = t.levelAfter s.strobe := rfl
@[simp] theorem State.emit_out (s : State) (t : Token) : (s.emit t).out = s.out ++ [t] := rfl
@[simp] theorem State.emit_rsp (s : State) (t : Token) : (s.emit t).rsp = s.rsp := rfl
@[simp] theorem State.emit_rspValid (s : State) (t : Token) : (s.emit t).rspValid = s.rspValid := rfl
@[simp] theorem State.emit_seq (s : State) (t : Token) : (s.emit t).seq = s.seq := rfl
@[simp] theorem State.emit_chain (s : State) (t : Token) : (s.emit t).chain = s.chain.observe s.cfg.cmdNoop s.strobe t := rfl
@[simp] theorem State.emit_host (s : State) (t : Token) : (s.emit t).host = s.host := rfl

@[simp] theorem State.setHost_cfg (s : State) (rest : List HostEvent) : (s.setHost rest).cfg = s.cfg := rfl
@[simp] theorem State.setHost_fb (s : State) (rest : List HostEvent) : (s.setHost rest).fb = s.fb := rfl
@[simp] theorem State.setHost_strobe (s : State) (rest : List HostEvent) : (s.setHost rest).strobe = s.strobe := rfl
@[simp] theorem State.setHost_out (s : State) (rest : List HostEvent) : (s.setHost rest).out = s.out := rfl
@[simp] theorem State.setHost_rsp (s : State) (rest : List HostEvent) : (s.setHost rest).rsp = s.rsp := rfl
@[simp] theorem State.setHost_rspValid (s : State) (rest : List HostEvent) : (s.setHost rest).rspValid = s.rspValid := rfl
@[simp] theorem State.setHost_seq (s : State) (rest : List HostEvent) : (s.setHost rest).seq = s.seq := rfl
@[simp] theorem State.setHost_chain (s : State) (rest : List HostEvent) : (s.setHost rest).chain = s.chain := rfl
@[simp] theorem State.setHost_host (s : State) (rest : List HostEvent) : (s.setHost rest).host = rest := rfl

@[simp] theorem State.presentWord_cfg (s : State) (w : Word) : (s.presentWord w).cfg = s.cfg := rfl
@[simp] theorem State.presentWord_fb (s : State) (w : Word) : (s.presentWord w).fb = s.fb := rfl
@[simp] theorem State.presentWord_strobe (s : State) (w : Word) : (s.presentWord w).strobe = s.strobe := rfl
@[simp] theorem State.presentWord_out (s : State) (w : Word) : (s.presentWord w).out = s.out := rfl
@[simp] theorem State.presentWord_rsp (s : State) (w : Word) : (s.presentWord w).rsp = s.rsp := rfl
@[simp] theorem State.presentWord_rspValid (s : State) (w : Word) : (s.presentWord w).rspValid = false := rfl
@[simp] theorem State.presentWord_seq (s : State) (w : Word) : (s.presentWord w).seq = [] := rfl
@[simp] theorem State.presentWord_chain (s : State) (w : Word) : (s.presentWord w).chain = s.chain := rfl
@[simp] theorem State.presentWord_host (s : State) (w : Word) : (s.presentWord w).host = .command w :: s.host := rfl

@[simp] theorem State.inProgress_cfg (s t : State) (r : Bool) : (s.inProgress t r).cfg = t.cfg := rfl
@[simp] theorem State.inProgress_fb (s t : State) (r : Bool) : (s.inProgress t r).fb = t.fb := rfl
@[simp] theorem State.inProgress_strobe (s t : State) (r : Bool) : (s.inProgress t r).strobe = s.strobe := rfl
@[simp] theorem State.inProgress_out (s t : State) (r : Bool) : (s.inProgress t r).out = s.out := rfl
@[simp] theorem State.inProgress_rsp (s t : State) (r : Bool) : (s.inProgress t r).rsp = t.rsp := rfl
@[simp] theorem State.inProgress_rspValid (s t : State) (r : Bool) : (s.inProgress t r).rspValid = r := rfl
@[simp] theorem State.inProgress_seq (s t : State) (r : Bool) : (s.inProgress t r).seq = t.out.drop s.out.length := rfl
@[simp] theorem State.inProgress_chain (s t : State) (r : Bool) : (s.inProgress t r).chain = s.chain := rfl
@[simp] theorem State.inProgress_host (s t : State) (r : Bool) : (s.inProgress t r).host = t.host := rfl

@[simp] theorem State.ofConfig_cfg (cfg : Config) (chain : Chain) : (State.ofConfig cfg chain).cfg = cfg := rfl
@[simp] theorem State.ofConfig_fb (cfg : Config) (chain : Chain) : (State.ofConfig cfg chain).fb = [] := rfl
@[simp] theorem State.ofConfig_strobe (cfg : Config) (chain : Chain) : (State.ofConfig cfg chain).strobe = true := rfl
@[simp] theorem State.ofConfig_out (cfg : Config) (chain : Chain) : (State.ofConfig cfg chain).out = [] := rfl
@[simp] theorem State.ofConfig_rsp (cfg : Config) (chain : Chain) : (State.ofConfig cfg chain).rsp = none := rfl
@[simp] theorem State.ofConfig_rspValid (cfg : Config) (chain : Chain) : (State.ofConfig cfg chain).rspValid = false := rfl
@[simp] theorem State.ofConfig_seq (cfg : Config) (chain : Chain) : (State.ofConfig cfg chain).seq = [] := rfl
@[simp] theorem State.ofConfig_chain (cfg : Config) (chain : Chain) : (State.ofConfig cfg chain).chain = chain := rfl
@[simp] theorem State.ofConfig_host (cfg : Config) (chain : Chain) : (State.ofConfig cfg chain).host = [] := rfl

/-- The state update of a framebuffer command changes the framebuffer alone. -/
theorem State.setFb_eq (s : State) (m : Memory) : s.setFb m = { s with fb := m } := rfl

/-- The state update of a responding command changes the response alone. -/
theorem State.respond_eq (s : State) (v : Byte) : s.respond v = { s with rsp := some v } := rfl

/-- The word port is ready exactly when the block is idle and no response waits (30_encoding.md R60). -/
theorem State.cmdReady_iff (s : State) : s.cmdReady = true ↔ s.seq = [] ∧ s.rspValid = false := by
  simp [State.cmdReady]

end Sys2Proof.Machine
end

