-- ==== Sys2Proof/Laws/Emit.lean ====
section
/-! SUPPORT. What emitting tokens does to the state, and the shape of every command's effect. -/

namespace Sys2Proof.Machine

/-- The chain and the strobe level after a list of tokens. -/
def Chain.feed (noop : Byte) : Bool → Chain → List Token → Chain
  | _, c, [] => c
  | strobe, c, t :: ts => Chain.feed noop (t.levelAfter strobe) (c.observe noop strobe t) ts

@[simp] theorem strobeAfter_nil (l : Bool) : strobeAfter [] l = l := rfl

@[simp] theorem strobeAfter_cons (t : Token) (ts : List Token) (l : Bool) :
    strobeAfter (t :: ts) l = strobeAfter ts (t.levelAfter l) := rfl

theorem strobeAfter_append (ts us : List Token) (l : Bool) :
    strobeAfter (ts ++ us) l = strobeAfter us (strobeAfter ts l) := by simp [strobeAfter]

theorem Chain.feed_append (noop : Byte) (l : Bool) (c : Chain) (ts us : List Token) :
    Chain.feed noop l c (ts ++ us) = Chain.feed noop (strobeAfter ts l) (Chain.feed noop l c ts) us := by
  induction ts generalizing l c with
  | nil => rfl
  | cons t r ih => simp [Chain.feed, ih]

@[simp] theorem Chain.feed_len (noop : Byte) (l : Bool) (c : Chain) (ts : List Token) :
    (Chain.feed noop l c ts).len = c.len := by
  induction ts generalizing l c with
  | nil => rfl
  | cons t r ih => simp [Chain.feed, ih]

theorem Chain.inv_feed (noop : Byte) (l : Bool) {c : Chain} (ts : List Token) (h : c.Inv) :
    (Chain.feed noop l c ts).Inv := by
  induction ts generalizing l c with
  | nil => exact h
  | cons t r ih => exact ih _ (Chain.inv_observe _ _ _ h)

/-- Everything emitting tokens does: OUT gains them at its end, STROBE follows them, the chain sees them
(00_scope.md R10, 42_chain_protocol.md R130, R131); nothing else changes. -/
theorem State.emitAll_eq (s : State) (ts : List Token) :
    s.emitAll ts = { s with
      out := s.out ++ ts
      strobe := strobeAfter ts s.strobe
      chain := Chain.feed s.cfg.cmdNoop s.strobe s.chain ts } := by
  unfold State.emitAll
  induction ts generalizing s with
  | nil => simp [Chain.feed]
  | cons t r ih => simp [ih, Chain.feed, State.emit]

@[simp] theorem State.emitAll_cfg (s : State) (ts : List Token) : (s.emitAll ts).cfg = s.cfg := by simp [emitAll_eq]
@[simp] theorem State.emitAll_fb (s : State) (ts : List Token) : (s.emitAll ts).fb = s.fb := by simp [emitAll_eq]
@[simp] theorem State.emitAll_strobe (s : State) (ts : List Token) :
    (s.emitAll ts).strobe = strobeAfter ts s.strobe := by simp [emitAll_eq]
@[simp] theorem State.emitAll_out (s : State) (ts : List Token) : (s.emitAll ts).out = s.out ++ ts := by
  simp [emitAll_eq]
@[simp] theorem State.emitAll_rsp (s : State) (ts : List Token) : (s.emitAll ts).rsp = s.rsp := by simp [emitAll_eq]
@[simp] theorem State.emitAll_rspValid (s : State) (ts : List Token) : (s.emitAll ts).rspValid = s.rspValid := by
  simp [emitAll_eq]
@[simp] theorem State.emitAll_seq (s : State) (ts : List Token) : (s.emitAll ts).seq = s.seq := by simp [emitAll_eq]
@[simp] theorem State.emitAll_chain (s : State) (ts : List Token) :
    (s.emitAll ts).chain = Chain.feed s.cfg.cmdNoop s.strobe s.chain ts := by simp [emitAll_eq]
@[simp] theorem State.emitAll_host (s : State) (ts : List Token) : (s.emitAll ts).host = s.host := by simp [emitAll_eq]

theorem State.emitAll_append (s : State) (ts us : List Token) : s.emitAll (ts ++ us) = (s.emitAll ts).emitAll us := by
  simp [State.emitAll]

@[simp] theorem State.emitAll_nil (s : State) : s.emitAll [] = s := rfl

/-- The tokens a command sends, by the rules of 42_chain_protocol.md. -/
def tokensOf (s : State) : Instr → List Token
  | .bcast cmd data => bcastTokens s.cfg cmd data
  | .addr chip cmd data => addrTokens s.cfg chip cmd data
  | .refrow row => refrowTokens s.cfg s.fb row
  | .refdisp => refdispTokens s.cfg s.fb
  | .setbrt level => setbrtTokens s.cfg level
  | .init => initTokens s.cfg
  | .setpix _ _ => []
  | .clrpix _ _ => []
  | .getpix _ _ => []
  | .clrall => []
  | .shr => []
  | .shl => []
  | .fbrd _ => []

/-- The framebuffer after a command. -/
def fbAfter (s : State) : Instr → Memory
  | .setpix x y =>
    if validPixel s.cfg x y then s.fb.write (idx s.n x y) (setBit (s.fb.read (idx s.n x y)) (bitOf x)) else s.fb
  | .clrpix x y =>
    if validPixel s.cfg x y then s.fb.write (idx s.n x y) (clearBit (s.fb.read (idx s.n x y)) (bitOf x)) else s.fb
  | .clrall => Memory.ofFn s.cfg.fbBytes (fun _ => 0x00)
  | .shr => Memory.ofFn s.cfg.fbBytes (shrByte s.n s.fb)
  | .shl => Memory.ofFn s.cfg.fbBytes (shlByte s.n s.fb)
  | .getpix _ _ => s.fb
  | .bcast _ _ => s.fb
  | .addr _ _ _ => s.fb
  | .refrow _ => s.fb
  | .refdisp => s.fb
  | .setbrt _ => s.fb
  | .init => s.fb
  | .fbrd _ => s.fb

/-- The response after a command. -/
def rspAfter (s : State) : Instr → Option Byte
  | .getpix x y => some (if validPixel s.cfg x y then zextBit (s.pixel x y) else 0x00)
  | .fbrd i => some (if i < s.cfg.fbBytes then s.fb.read i else 0x00)
  | .setpix _ _ => s.rsp
  | .clrpix _ _ => s.rsp
  | .clrall => s.rsp
  | .shr => s.rsp
  | .shl => s.rsp
  | .bcast _ _ => s.rsp
  | .addr _ _ _ => s.rsp
  | .refrow _ => s.rsp
  | .refdisp => s.rsp
  | .setbrt _ => s.rsp
  | .init => s.rsp

/-- Everything a command can do: a framebuffer, a response and tokens, each from the state before it. -/
theorem exec_eq (i : Instr) (s : State) :
    exec i s = .next (({ s with fb := fbAfter s i, rsp := rspAfter s i } : State).emitAll (tokensOf s i)) := by
  cases i <;> try rfl
  case setpix x y => simp only [exec, execSetpix, fbAfter, rspAfter, tokensOf, State.emitAll_nil]; split <;> rfl
  case clrpix x y => simp only [exec, execClrpix, fbAfter, rspAfter, tokensOf, State.emitAll_nil]; split <;> rfl

end Sys2Proof.Machine
end

