-- ==== Sys2Proof/Laws/PerInstr.lean ====
section
/-! SUPPORT. Statements made of every command, one lemma per constructor of Instr. -/

namespace Sys2Proof.Laws.EncodeInFormat

/-- The command's word has the opcode of its row of the opcode table, and its format's reserved field is zero
(30_encoding.md R62). -/
def Statement (i : Instr) : Prop :=
  opField (encode i) = opField i.row.pattern ∧ encode i &&& i.row.fmt.reservedMask = 0

theorem setpix (x y : Nat) : Statement (.setpix x y) := by
  refine ⟨?_, (and_reservedMask_eq_zero_iff _ _).mpr ?_⟩ <;>
    simp only [opField, field_eq, encode, encodeP_toNat, Format.reserved, Instr.row, BitVec.toNat_ofNat,
      BitVec.ofNat_eq_ofNat] <;> omega

theorem clrpix (x y : Nat) : Statement (.clrpix x y) := by
  refine ⟨?_, (and_reservedMask_eq_zero_iff _ _).mpr ?_⟩ <;>
    simp only [opField, field_eq, encode, encodeP_toNat, Format.reserved, Instr.row, BitVec.toNat_ofNat,
      BitVec.ofNat_eq_ofNat] <;> omega

theorem getpix (x y : Nat) : Statement (.getpix x y) := by
  refine ⟨?_, (and_reservedMask_eq_zero_iff _ _).mpr ?_⟩ <;>
    simp only [opField, field_eq, encode, encodeP_toNat, Format.reserved, Instr.row, BitVec.toNat_ofNat,
      BitVec.ofNat_eq_ofNat] <;> omega

theorem clrall : Statement .clrall := by constructor <;> decide
theorem shr : Statement .shr := by constructor <;> decide
theorem shl : Statement .shl := by constructor <;> decide

theorem bcast (cmd data : Byte) : Statement (.bcast cmd data) := by
  have h1 := cmd.isLt
  have h2 := data.isLt
  refine ⟨?_, (and_reservedMask_eq_zero_iff _ _).mpr ?_⟩ <;>
    simp only [opField, field_eq, encode_bcast_toNat, Format.reserved, Instr.row, BitVec.toNat_ofNat,
      BitVec.ofNat_eq_ofNat] <;> omega

theorem addr (chip : Nat) (cmd data : Byte) : Statement (.addr chip cmd data) := by
  have h1 := cmd.isLt
  have h2 := data.isLt
  refine ⟨?_, (and_reservedMask_eq_zero_iff _ _).mpr ?_⟩ <;>
    simp only [opField, field_eq, encode_addr_toNat, Format.reserved, Instr.row, BitVec.toNat_ofNat,
      BitVec.ofNat_eq_ofNat] <;> omega

theorem refrow (row : Nat) : Statement (.refrow row) := by
  refine ⟨?_, (and_reservedMask_eq_zero_iff _ _).mpr ?_⟩ <;>
    simp only [opField, field_eq, encode_refrow_toNat, Format.reserved, Instr.row, BitVec.toNat_ofNat,
      BitVec.ofNat_eq_ofNat] <;> omega

theorem refdisp : Statement .refdisp := by constructor <;> decide

theorem setbrt (level : Nat) : Statement (.setbrt level) := by
  refine ⟨?_, (and_reservedMask_eq_zero_iff _ _).mpr ?_⟩ <;>
    simp only [opField, field_eq, encode_setbrt_toNat, Format.reserved, Instr.row, BitVec.toNat_ofNat,
      BitVec.ofNat_eq_ofNat] <;> omega

theorem init : Statement .init := by constructor <;> decide

theorem fbrd (index : Nat) : Statement (.fbrd index) := by
  refine ⟨?_, (and_reservedMask_eq_zero_iff _ _).mpr ?_⟩ <;>
    simp only [opField, field_eq, encode_fbrd_toNat, Format.reserved, Instr.row, BitVec.toNat_ofNat,
      BitVec.ofNat_eq_ofNat] <;> omega

end Sys2Proof.Laws.EncodeInFormat
end

