-- ==== Sys2Proof/Laws/Port.lean ====
section
/-! SUPPORT. Which event a step serves, and the shape of every step. -/

namespace Sys2Proof.Machine

/-- A ready block serves the first event. -/
@[simp] theorem nextEvent_ready (e : HostEvent) (rest : List HostEvent) :
    nextEvent true (e :: rest) = some (e, rest) := rfl

/-- An event of another port than the word's is served whether the block is ready or not. -/
theorem nextEvent_of_not_word {e : HostEvent} (ready : Bool) (rest : List HostEvent) (h : e.isWord = false) :
    nextEvent ready (e :: rest) = some (e, rest) := by simp [nextEvent, h]

/-- Everything nextEvent can answer: words the block is not ready for wait in front of the event it serves. -/
theorem nextEvent_eq_some {ready : Bool} {es others : List HostEvent} {e : HostEvent}
    (h : nextEvent ready es = some (e, others)) :
    ∃ words rest, es = words ++ e :: rest ∧ others = words ++ rest ∧ (∀ w ∈ words, w.isWord = true) ∧
      (e.isWord = true → ready = true) := by
  induction es generalizing others with
  | nil => simp [nextEvent] at h
  | cons a r ih =>
    rw [nextEvent] at h
    split at h
    · next hr =>
      cases h
      exact ⟨[], _, rfl, rfl, by simp, fun hw => by simpa [hw] using hr⟩
    · next hr =>
      simp only [Bool.or_eq_true, Bool.not_eq_true', not_or, Bool.not_eq_false] at hr
      split at h
      · next next others' hn =>
        cases h
        obtain ⟨words, rest, h1, h2, h3, h4⟩ := ih hn
        refine ⟨a :: words, rest, by simp [h1], by simp [h2], ?_, h4⟩
        intro w hw
        rcases List.mem_cons.mp hw with rfl | hw
        · exact hr.2
        · exact h3 w hw
      · cases h

/-- With nothing but words it is not ready for, the block serves no event. -/
theorem nextEvent_words {es : List HostEvent} (h : ∀ e ∈ es, e.isWord = true) : nextEvent false es = none := by
  induction es with
  | nil => rfl
  | cons a r ih =>
    rw [nextEvent, ih fun e he => h e (List.mem_cons_of_mem _ he)]
    simp [h a List.mem_cons_self]

/-- Behind words that wait, the next event of another port is served. -/
theorem nextEvent_behind_words {words : List HostEvent} {e : HostEvent} (rest : List HostEvent)
    (h : ∀ w ∈ words, w.isWord = true) (he : e.isWord = false) :
    nextEvent false (words ++ e :: rest) = some (e, words ++ rest) := by
  induction words with
  | nil => exact nextEvent_of_not_word false rest he
  | cons a r ih =>
    rw [List.cons_append, nextEvent, ih fun w hw => h w (List.mem_cons_of_mem _ hw)]
    simp [h a List.mem_cons_self]

/-- A step with no event to serve waits. -/
theorem step_eq_self {s : State} (h : nextEvent s.cmdReady s.host = none) : step s = .next s := by simp [step, h]

/-- A step with an event to serve serves it. -/
theorem step_eq_serve {s : State} {e : HostEvent} {rest : List HostEvent}
    (h : nextEvent s.cmdReady s.host = some (e, rest)) : step s = serve e (s.setHost rest) := by simp [step, h]

/-- At a ready block, the first event is served. -/
theorem step_of_ready {s : State} {e : HostEvent} {rest : List HostEvent} (hr : s.cmdReady = true)
    (h : s.host = e :: rest) : step s = serve e (s.setHost rest) :=
  step_eq_serve (by rw [hr, h]; rfl)

end Sys2Proof.Machine
end

