-- ==== Sys2Proof/Tests/Slice0.lean ====
section
/-! SUPPORT. Tests of the model: expected results come from 95_test_vectors.md and the rules' own examples; and one
witness for the hypotheses of each statement. -/

namespace Sys2Proof.Machine.Tests

/-- A block just built with `n` chips in front of a chain of `n` chips, with the framebuffer `fb`. -/
def block (n : ChipCount) (fb : Memory) : State :=
  { State.ofConfig { chips := n } { len := n.val, wire := [], regs := [] } with fb := fb }

/-- The same block built with the LEGACY bound. -/
def legacyBlock (n : ChipCount) (fb : Memory) : State :=
  { State.ofConfig { xbound := .legacy, chips := n } { len := n.val, wire := [], regs := [] } with fb := fb }

def n1 : ChipCount := ⟨1, by decide⟩
def n2 : ChipCount := ⟨2, by decide⟩
def n3 : ChipCount := ⟨3, by decide⟩

/-- What `f` reads from the state after the command. -/
def after {α : Type} (i : Instr) (s : State) (f : State → α) : Option α :=
  match exec i s with
  | .next t => some (f t)
  | .fault _ => none
  | .refused _ => none

/-- What `f` reads from the state after a step. -/
def afterStep {α : Type} (s : State) (f : State → α) : Option α :=
  match step s with
  | .next t => some (f t)
  | .fault _ => none
  | .refused _ => none

/-- The block in the middle of a command: the tokens `ts` have not gone out. -/
def midCommand (s : State) (ts : List Token) : State := { s with seq := ts }

/-! ## Well-formedness: one ill-formed term for each check (30_encoding.md R62, R67) -/

theorem test_setpix_x_too_large : (Instr.setpix 65536 0).wellFormed = false := by decide
theorem test_setpix_y_too_large : (Instr.setpix 0 16).wellFormed = false := by decide
theorem test_clrpix_x_too_large : (Instr.clrpix 65536 0).wellFormed = false := by decide
theorem test_clrpix_y_too_large : (Instr.clrpix 0 16).wellFormed = false := by decide
theorem test_getpix_x_too_large : (Instr.getpix 65536 0).wellFormed = false := by decide
theorem test_getpix_y_too_large : (Instr.getpix 0 16).wellFormed = false := by decide
theorem test_addr_chip_too_large : (Instr.addr 4096 0 0).wellFormed = false := by decide
theorem test_refrow_row_too_large : (Instr.refrow 8).wellFormed = false := by decide
theorem test_setbrt_level_too_large : (Instr.setbrt 256).wellFormed = false := by decide
theorem test_fbrd_index_too_large : (Instr.fbrd 65536).wellFormed = false := by decide
/-- Operands that fit but are out of range are well formed: the hardware rejects them (30_encoding.md R67). -/
theorem test_out_of_range_is_well_formed :
    (Instr.setpix 65535 15).wellFormed = true ∧ (Instr.setbrt 255).wellFormed = true := by decide

/-! ## Decoding: words written out from the patterns of 30_encoding.md R62 -/

theorem test_decode_setpix : decode 0b00010000000001010000000000010001 = .ok (.setpix 17 5) := by decide
theorem test_decode_clrpix : decode 0b00100000000000110000000000000010 = .ok (.clrpix 2 3) := by decide
theorem test_decode_getpix : decode 0b00110000000010000000000000000000 = .ok (.getpix 0 8) := by decide
theorem test_decode_clrall : decode 0b01000000000000000000000000000000 = .ok .clrall := by decide
theorem test_decode_shr : decode 0b01010000000000000000000000000000 = .ok .shr := by decide
theorem test_decode_shl : decode 0b01100000000000000000000000000000 = .ok .shl := by decide
theorem test_decode_bcast : decode 0b01110000000000000000110000000001 = .ok (.bcast 0x0C 0x01) := by decide
theorem test_decode_addr : decode 0b10000000000000010000101000000011 = .ok (.addr 1 0x0A 0x03) := by decide
theorem test_decode_addr_all_ones : decode 0b10001111111111110000101000000111 = .ok (.addr 4095 0x0A 0x07) := by
  decide
theorem test_decode_refrow : decode 0b10010000000000000000000000000111 = .ok (.refrow 7) := by decide
theorem test_decode_refdisp : decode 0b10100000000000000000000000000000 = .ok .refdisp := by decide
theorem test_decode_setbrt : decode 0b10110000000000000000000011001000 = .ok (.setbrt 200) := by decide
theorem test_decode_init : decode 0b11000000000000000000000000000000 = .ok .init := by decide
theorem test_decode_fbrd : decode 0b11010000000000001111111111111111 = .ok (.fbrd 65535) := by decide

/-- The illegal words of 95_test_vectors.md L2.1. -/
theorem test_decode_illegal :
    decode 0x00000000 = .error .reservedOp ∧ decode 0xE0000000 = .error .reservedOp ∧
    decode 0xF0000000 = .error .reservedOp ∧ decode 0x40000001 = .error .reservedField ∧
    decode 0x10100000 = .error .reservedField ∧ decode 0x70010000 = .error .reservedField ∧
    decode 0x90000008 = .error .reservedField ∧ decode 0xB0000100 = .error .reservedField ∧
    decode 0xD0010000 = .error .reservedField := by decide

/-- The rows of the opcode table are pairwise disjoint (30_encoding.md R65). -/
theorem test_rows_disjoint :
    opcodeTable.Pairwise (fun r r' => r.pattern &&& (r.mask &&& r'.mask) ≠ r'.pattern &&& (r.mask &&& r'.mask)) := by
  decide
/-- A row's mask is the opcode field and the reserved bits of its format. -/
theorem test_row_masks : ∀ r ∈ opcodeTable, r.mask = 0xF0000000 ||| r.fmt.reservedMask := by decide

theorem test_decodeTableWord : decodeTableWord 32 0x80020A07 = some (.addr 2 0x0A 0x07) := by decide

/-! ## Framebuffer commands (95_test_vectors.md L1.1, L2.2, L2.3) -/

theorem test_setpix_chip_boundary : after (.setpix 8 0) (block n2 []) State.fb = some [(1, 0x80)] := by decide
theorem test_setpix_index : after (.setpix 17 5) (block n3 []) State.fb = some [(17, 0x40)] := by decide
theorem test_clrpix : after (.clrpix 2 3) (block n1 [(3, 0xFF)]) State.fb = some [(3, 0xDF)] := by decide
theorem test_clrpix_legacy_edge :
    after (.clrpix 21 0) (legacyBlock n3 [(2, 0x04)]) State.fb = some [] ∧
    after (.clrpix 22 0) (legacyBlock n3 [(2, 0x02)]) State.fb = some [(2, 0x02)] := by decide
theorem test_getpix_lit : after (.getpix 7 0) (block n1 [(0, 0x01)]) State.rsp = some (some 0x01) := by decide
theorem test_getpix_legacy : after (.getpix 15 0) (legacyBlock n2 [(1, 0x01)]) State.rsp = some (some 0x00) := by decide
theorem test_clrall : after .clrall (block n1 [(0, 0xFF), (1, 0x01), (7, 0x80)]) State.fb = some [] := by decide
theorem test_fbrd : after (.fbrd 1) (block n2 [(0, 0x01), (1, 0x80)]) State.rsp = some (some 0x80) := by decide
theorem test_fbrd_out_of_range : after (.fbrd 16) (block n2 [(15, 0xFF)]) State.rsp = some (some 0x00) := by decide

/-! ## Shifter (95_test_vectors.md L2.4) -/

theorem test_shr_carry :
    after .shr (block n3 [(0, 0x01), (1, 0x01), (2, 0x01)]) State.fb = some [(1, 0x80), (2, 0x80)] := by decide
theorem test_shr_rows_are_apart : after .shr (block n2 [(1, 0x01)]) State.fb = some [] := by decide
theorem test_shl_carry :
    after .shl (block n3 [(0, 0x80), (1, 0x80), (2, 0x80)]) State.fb = some [(0, 0x01), (1, 0x01)] := by decide
theorem test_shl_one_chip :
    after .shl (block n1 [(0, 0x81), (1, 0x01), (2, 0x80), (3, 0xFF)]) State.fb =
      some [(0, 0x02), (1, 0x02), (3, 0xFE)] := by decide

/-! ## Packet encoder and chain (95_test_vectors.md L2.5) -/

theorem test_bcast_tokens : after (.bcast 0x0A 0x05) (block n2 []) State.out =
    some [.xferMSB 0x0A, .xferMSB 0x05, .xferMSB 0x0A, .xferMSB 0x05, .strobeAssert, .strobeRelease] := by decide
theorem test_bcast_chain : after (.bcast 0x0A 0x05) (block n2 []) (fun t => (t.chain.reg 0 0x0A, t.chain.reg 1 0x0A)) =
    some (0x05, 0x05) := by decide
theorem test_addr_tokens : after (.addr 1 0x0A 0x03) (block n3 []) State.out =
    some [.xferMSB 0x00, .xferMSB 0x00, .xferMSB 0x0A, .xferMSB 0x03, .xferMSB 0x00, .xferMSB 0x00,
      .strobeAssert, .strobeRelease] := by decide
theorem test_addr_reaches_one_chip : after (.addr 1 0x0A 0x03) (block n3 []) (fun t => t.chain.regs) =
    some [(regKey 1 0x0A, 0x03)] := by decide
theorem test_refrow_tokens : after (.refrow 3) (block n2 [(6, 0x40), (7, 0x80)]) State.out =
    some [.xferMSB 0x04, .xferLSB 0x80, .xferMSB 0x04, .xferLSB 0x40, .strobeAssert, .strobeRelease] := by decide
theorem test_refrow_chain : after (.refrow 7) (block n3 [(21, 0x12), (22, 0xF0), (23, 0x01)])
    (fun t => (t.chain.reg 0 8, t.chain.reg 1 8, t.chain.reg 2 8)) = some (0x48, 0x0F, 0x80) := by decide
theorem test_refdisp_tokens : after .refdisp (block n1 []) (fun t => t.out.length) = some 32 := by decide
theorem test_refdisp_chain : after .refdisp (block n1 [(0, 0x02), (7, 0x20)])
    (fun t => (t.chain.reg 0 1, t.chain.reg 0 2, t.chain.reg 0 8)) = some (0x40, 0x00, 0x04) := by decide
theorem test_setbrt : after (.setbrt 15) (block n1 []) State.out =
    some [.xferMSB 0x0A, .xferMSB 0x0F, .strobeAssert, .strobeRelease] := by decide
theorem test_setbrt_out_of_range : after (.setbrt 16) (block n1 []) State.out = some [] := by decide
theorem test_init_tokens : after .init (block n1 []) State.out = some
    ([.xferMSB 0x0F, .xferMSB 0x00, .strobeAssert, .strobeRelease, .xferMSB 0x0C, .xferMSB 0x01, .strobeAssert,
      .strobeRelease, .xferMSB 0x0B, .xferMSB 0x07, .strobeAssert, .strobeRelease] ++
    [1, 2, 3, 4, 5, 6, 7, 8].flatMap (fun d => [.xferMSB d, .xferMSB 0x00, .strobeAssert, .strobeRelease])) := by
  decide
theorem test_init_chain : after .init (block n1 [])
    (fun t => (t.chain.reg 0 0x0F, t.chain.reg 0 0x0C, t.chain.reg 0 0x0B, t.chain.reg 0 8)) =
    some (0x00, 0x01, 0x07, 0x00) := by decide

/-! ## The ports and reset (30_encoding.md R60, 95_test_vectors.md L2.6) -/

theorem test_step_runs_word : afterStep (State.reset.withFetchWord 32 0x10000008) State.fb = some [(1, 0x80)] := by
  decide
theorem test_illegal_word : afterStep (State.reset.withFetchWord 32 0x10100000) id = some State.reset := by decide
/-- N = 1, `bcast 0x0A, 0x03` reset after `MSB0A MSB03 SA`: the line goes high and the group is latched. -/
theorem test_reset_while_strobe_low :
    afterStep { (midCommand (block n1 []) [.strobeRelease]).emitAll [.xferMSB 0x0A, .xferMSB 0x03, .strobeAssert] with
        host := [.reset none] }
      (fun t => (t.out, t.strobe, t.seq, t.chain.reg 0 0x0A)) =
    some ([.xferMSB 0x0A, .xferMSB 0x03, .strobeAssert, .strobeRelease], true, [], 0x03) := by decide
theorem test_reset_drops_word :
    afterStep { block n2 [(0, 0xFF)] with host := [.reset (some 0x10000008)] } State.fb = some [] := by decide
/-- A block whose transport is stalled keeps the presented word waiting; a reset behind the word is served
(70_reset_and_hazards.md R219). -/
theorem test_stalled_block_waits :
    afterStep { midCommand (block n1 []) [.strobeRelease] with host := [.command 0x40000000] } id =
      some { midCommand (block n1 []) [.strobeRelease] with host := [.command 0x40000000] } := by decide
theorem test_reset_ends_stall :
    afterStep { midCommand (block n1 []) [.strobeRelease] with host := [.command 0x40000000, .reset none] }
      (fun t => (t.cmdReady, t.host)) = some (true, [.command 0x40000000]) := by decide
theorem test_no_response_to_take :
    step { block n1 [] with host := [.takeResponse] } = .refused .noResponse := by rfl
theorem test_construct_zero :
    State.construct 0 {} { len := 0, wire := [], regs := [] } = .error .invalidConfiguration := by decide
theorem test_construct_too_many :
    State.construct 4097 {} { len := 0, wire := [], regs := [] } = .error .aboveNmax := by decide

/-! ## Assembler (30_encoding.md R67, R68; 95_test_vectors.md L3) -/

theorem test_assemble : assembleLine State.reset.cfg "addr 1, 0x0A, 0x03 ; 0x80010A03".toList =
    .ok (none, [.addr 1 0x0A 0x03]) := by decide
theorem test_assemble_label : assembleLine State.reset.cfg "boot: scrollr".toList =
    .ok (some "boot".toList, [.shr, .refdisp]) := by decide
/-- log 21 -/
theorem test_assemble_putpix_value : assembleLine State.reset.cfg "putpix 0, 0, 2".toList = .error .operandTooLarge := by
  decide
theorem test_assemble_too_large : assembleLine State.reset.cfg "setpix 65536, 0".toList = .error .operandTooLarge := by
  decide

/-! ## Witnesses: the hypotheses of each statement that has some, met together, each clause at its boundaries -/

/-- A chain whose stages hold no written bits. -/
def blankChain (n : Nat) : Chain := { len := n, wire := [], regs := [] }

/-- SetpixEffect, ClrpixEffect, GetpixEffect: the fields' largest values, the largest valid coordinate and the
smallest invalid ones. -/
theorem witness_SetpixEffect :
    65535 < 65536 ∧ 15 < 16 ∧ validPixel (block n2 []).cfg 15 7 = true ∧ validPixel (block n2 []).cfg 16 0 = false ∧
    validPixel (block n2 []).cfg 0 8 = false ∧ 15 / 8 + (block n2 []).n * 7 = 15 ∧ 7 - 15 % 8 = 0 ∧ 7 < 8 := by decide
theorem witness_ClrpixEffect :
    65535 < 65536 ∧ 15 < 16 ∧ validPixel (legacyBlock n2 []).cfg 14 7 = true ∧
    validPixel (legacyBlock n2 []).cfg 15 0 = false ∧ validPixel (legacyBlock n2 []).cfg 0 8 = false ∧ 0 < 8 := by decide
theorem witness_GetpixEffect :
    65535 < 65536 ∧ 15 < 16 ∧ validPixel (block n1 [(0, 0x01)]).cfg 7 0 = true ∧
    ((block n1 [(0, 0x01)]).fb.read (7 / 8 + (block n1 [(0, 0x01)]).n * 0)).getLsbD (7 - 7 % 8) = true := by decide
theorem witness_ClrallEffect : 15 < 8 * (block n2 []).n := by decide
theorem witness_FbrdEffect : 65535 < 65536 ∧ 15 < 8 * (block n2 []).n ∧ ¬ 16 < 8 * (block n2 []).n := by decide
theorem witness_PixelWriteLocality :
    7 < 8 ∧ (14 ≠ idx (block n2 []).n 15 7 ∨ 7 ≠ bitOf 15) ∧ validPixel (block n2 []).cfg 15 7 = true ∧
    14 < 8 * (block n2 []).n ∧ (14 ≠ 15 ∨ 7 ≠ 7) ∧ (block n2 []).pixel 15 7 = false ∧
    (block n2 [(15, 0x01)]).pixel 15 7 = true := by decide
theorem witness_PixelWritesIdempotentAndCommute :
    (15 ≠ 14 ∨ 7 ≠ 7) ∧ validPixel (block n2 []).cfg 15 7 = true ∧ 15 < 8 * (block n2 []).n := by decide
theorem witness_LegacyColumnsUnreachable :
    (legacyBlock n2 []).cfg.xbound = .legacy ∧ 2 ≤ (legacyBlock n2 []).n ∧ 7 * (legacyBlock n2 []).n < 15 ∧
    15 < 8 * (legacyBlock n2 []).n ∧ 7 < 8 := by decide
theorem witness_PixelAddressBijection :
    15 < 8 * (block n2 []).cfg.n ∧ 7 < 8 ∧ 15 < 8 * (block n2 []).cfg.n ∧ 0 < 8 := by decide
theorem witness_BoundPolicy :
    (block n2 []).cfg.xbound = .exact ∧ (legacyBlock n2 []).cfg.xbound = .legacy ∧
    15 < 8 * (legacyBlock n2 []).cfg.n ∧ 7 ≤ 7 ∧
    validPixel { (block n2 []).cfg with xbound := .legacy } 14 7 = true := by decide
theorem witness_ShrEffect :
    15 < 8 * (block n2 []).n ∧ 15 % (block n2 []).n ≠ 0 ∧ ¬ 14 % (block n2 []).n ≠ 0 := by decide
theorem witness_ShlEffect :
    15 < 8 * (block n2 []).n ∧ ¬ (15 + 1) % (block n2 []).n ≠ 0 ∧ (14 + 1) % (block n2 []).n ≠ 0 := by decide
theorem witness_ShiftLoopsMatchParallelUpdate : 0 < 8 * (block n2 []).n ∧ 15 < 8 * (block n2 []).n := by decide
theorem witness_ShrMovesPixelsRight : 7 < 8 ∧ 1 ≤ 1 ∧ 1 ≤ 15 ∧ 15 ≤ 8 * (block n2 []).n - 1 := by decide
theorem witness_ShlMovesPixelsLeft : 7 < 8 ∧ 14 + 2 ≤ 8 * (block n2 []).n ∧ 0 + 2 ≤ 8 * (block n2 []).n := by decide
theorem witness_ShiftRoundTrips :
    7 < 8 ∧ 1 ≤ 15 ∧ 15 ≤ 8 * (block n2 []).n - 1 ∧ 14 + 2 ≤ 8 * (block n2 []).n ∧ 15 < 8 * (block n2 []).n ∧
    15 ≤ 15 ∧ 0 + 15 < 8 * (block n2 []).n ∧ ¬ 1 + 15 < 8 * (block n2 []).n := by decide
theorem witness_BcastEffect :
    (block n2 []).chain.len = (block n2 []).n ∧ 1 < (block n2 []).n ∧ (0x0A : Byte) ≠ (block n2 []).cfg.cmdNoop := by
  decide
theorem witness_AddrEffect :
    4095 < 4096 ∧ 1 < (block n2 []).n ∧ (block n2 []).n ≤ 2 ∧ (block n1 []).n = 1 := by decide
theorem witness_RefrowEffect : 7 < 8 := by decide
theorem witness_SetbrtEffect : 255 < 256 ∧ 15 ≤ 15 ∧ 15 < 16 := by decide
theorem witness_TokenCounts : decode 0xF0000000 = .error .reservedOp := by decide
theorem witness_ChainCommandsAndFramebuffer :
    isChainCommand .refdisp = true ∧ isChainCommand .init = true ∧ (∀ row, Instr.init ≠ .refrow row) ∧
    Instr.init ≠ .refdisp := by
  refine ⟨rfl, rfl, fun row h => ?_, fun h => ?_⟩ <;> cases h
theorem witness_ChainStagesShiftAndFill :
    1 < (blankChain 2).len ∧ 0 < (blankChain 2).len ∧
    (blankChain 2).len = [((0x04 : Byte), (0x80 : Byte), true), (0x0A, 0x05, false)].length ∧
    1 < [((0x04 : Byte), (0x80 : Byte), true), (0x0A, 0x05, false)].length := by decide
theorem witness_ChainLatchCommits :
    1 < (blankChain 2).len ∧
    ((((blankChain 2).observe 0 true (.xferMSB 0x0A)).observe 0 true (.xferMSB 0x05)).stage 0).extractLsb' 8 8 =
      0x0A ∧ (0x0A : Byte) ≠ 0x00 := by decide
theorem witness_AddrReachesOneChip :
    (block n2 []).chain.len = (block n2 []).n ∧ 1 < (block n2 []).n ∧ (0x0A : Byte) ≠ (block n2 []).cfg.cmdNoop := by
  decide
theorem witness_RefrowShowsRow :
    (block n2 []).chain.len = (block n2 []).n ∧ 7 < 8 ∧ 1 < (block n2 []).n ∧
    BitVec.ofNat 8 (7 + 1) ≠ (block n2 []).cfg.cmdNoop := by decide
theorem witness_RefdispShowsFramebuffer :
    (block n2 []).chain.len = (block n2 []).n ∧ 1 < (block n2 []).n ∧ 7 < 8 ∧
    BitVec.ofNat 8 (7 + 1) ≠ (block n2 []).cfg.cmdNoop ∧ 8 < (0x09 : Byte).toNat ∧
    (0x00 : Byte) = (block n2 []).cfg.cmdNoop := by decide
theorem witness_InitConfiguresChips :
    (legacyBlock n2 []).chain.len = (legacyBlock n2 []).n ∧
    (legacyBlock n2 []).cfg.toOptions = { xbound := (legacyBlock n2 []).cfg.xbound } ∧ 1 < (legacyBlock n2 []).n ∧
    1 ≤ (0x08 : Byte).toNat ∧ (0x08 : Byte).toNat ≤ 8 := by decide
theorem witness_SetbrtSetsIntensity :
    (block n2 []).chain.len = (block n2 []).n ∧ 1 < (block n2 []).n ∧ 15 ≤ 15 ∧ ¬ 16 ≤ 15 ∧
    (block n2 []).cfg.cmdIntensity ≠ (block n2 []).cfg.cmdNoop := by decide
theorem witness_ChainCommandsIdempotentOnChips :
    (block n2 []).chain.len = (block n2 []).n ∧ isChainCommand (.refrow 7) = true ∧ 1 < (block n2 []).n := by decide
theorem witness_RefdispShowsRowsInOrder :
    (block n2 []).cmdReady = true ∧ (block n2 []).chain.len = (block n2 []).n ∧ 7 < 8 ∧ 1 < (block n2 []).n ∧
    BitVec.ofNat 8 (7 + 1) ≠ (block n2 []).cfg.cmdNoop ∧ 7 ≤ 7 ∧ ¬ 1 ≤ 0 := by decide
/-- A step that goes on and one that refuses. -/
theorem witness_NoFeedbackFromChain :
    (∃ t, step (block n2 []) = .next t) ∧
    step { block n2 [] with host := [.takeResponse] } = .refused .noResponse := ⟨⟨_, rfl⟩, rfl⟩
theorem witness_DecodeOfEncode : (Instr.addr 4095 0xFF 0xFF).wellFormed = true := by decide
theorem witness_EncodeOfDecode : decode 0x100FFFFF = .ok (.setpix 65535 15) := by decide
theorem witness_DecodeFollowsTable :
    opField 0x0FFFFFFF = 0 ∧ 14 ≤ opField 0xE0000000 ∧ (Instr.refrow 7).row ∈ opcodeTable ∧
    opField 0x90000007 = opField (Instr.refrow 7).row.pattern ∧
    (0x90000007 : Word) &&& (Instr.refrow 7).row.fmt.reservedMask = 0 ∧
    opField 0x90000008 = opField (Instr.refrow 7).row.pattern ∧
    (0x90000008 : Word) &&& (Instr.refrow 7).row.fmt.reservedMask ≠ 0 ∧
    (Instr.refrow 7).row.fits 0x90000007 = true := by decide
/-- Each ground of illegality: the three reserved opcodes, and a reserved field. -/
theorem witness_IllegalWordIsNoop :
    { block n2 [] with host := [.command 0x40000001] }.host = [.command 0x40000001] ∧
    { block n2 [] with host := [.command 0x40000001] }.cmdReady = true ∧
    opField 0x00000000 = 0 ∧ opField 0xE0000000 = 14 ∧ opField 0xF0000000 = 15 ∧
    Instr.clrall.row ∈ opcodeTable ∧ opField 0x40000001 = opField Instr.clrall.row.pattern ∧
    (0x40000001 : Word) &&& Instr.clrall.row.fmt.reservedMask ≠ 0 := by decide
theorem witness_PutcolDrawsColumn :
    xok (block n2 []).cfg 15 = true ∧ 7 < 8 ∧ 14 < 8 * (block n2 []).n ∧ 14 ≠ 15 := by decide
theorem witness_AssemblerChecksOperands :
    65535 ≤ 65535 ∧ 15 ≤ 15 ∧ 4095 ≤ 4095 ∧ 255 ≤ 255 ∧ 7 ≤ 7 ∧ ¬ 65536 ≤ 65535 ∧ ¬ 16 ≤ 15 ∧ ¬ 4096 ≤ 4095 ∧
    ¬ 256 ≤ 255 ∧ ¬ 8 ≤ 7 := by decide
theorem witness_ConstructionRefusesZeroChips : 1 ≤ 1 ∧ 4096 ≤ 4096 ∧ 1 ≤ 4096 := by decide
theorem witness_ConstructedState :
    State.construct 2 {} (blankChain 2) = .ok (State.ofConfig { chips := n2 } (blankChain 2)) := by decide
/-- A reset with the line high and one with it low. -/
theorem witness_ResetEffect :
    { block n2 [] with host := [.reset (some 0x50000000)] }.host = [.reset (some 0x50000000)] ∧
    { block n2 [] with host := [.reset none] }.strobe = true ∧
    { block n2 [] with strobe := false, host := [.reset none] }.strobe = false := by decide
/-- `k` tokens that leave the line high, and `k` that leave it low. -/
theorem witness_ResetDuringCommand :
    { block n1 [] with host := [.accept 0x70000A03, .proceed 3, .reset none] }.host =
      [.accept 0x70000A03, .proceed 3, .reset none] ∧
    (block n1 []).cmdReady = true ∧ (block n1 []).strobe = true ∧ decode 0x70000A03 = .ok (.bcast 0x0A 0x03) ∧
    strobeAfter ([Token.xferMSB 0x0A, .xferMSB 0x03, .strobeAssert, .strobeRelease].take 2) true = true ∧
    strobeAfter ([Token.xferMSB 0x0A, .xferMSB 0x03, .strobeAssert, .strobeRelease].take 3) true = false := by decide
theorem witness_AtomicStepIsSound :
    (block n1 []).cmdReady = true ∧ decode 0x70000A03 = .ok (.bcast 0x0A 0x03) ∧
    decode 0x30000007 = .ok (.getpix 7 0) ∧ responds (.getpix 7 0) = true ∧
    after (.bcast 0x0A 0x03) (block n1 []) (fun t => decide (t.out.length ≤ (block n1 []).out.length + [1, 3].sum)) =
      some true := by decide
/-- Tokens outstanding: with two words and nothing else to come, with a reset behind them, with a token behind them. -/
theorem witness_StalledTransportIsStuck :
    (midCommand (block n1 []) [.strobeRelease]).seq ≠ [] ∧
    (∃ t, step { midCommand (block n1 []) [.strobeRelease] with host := [.accept 0x40000000, .proceed 1] } = .next t) ∧
    (∀ e ∈ [HostEvent.command 0x40000000, .accept 0xA0000000], e.isWord = true) ∧
    { midCommand (block n1 []) [.strobeRelease] with host := [.accept 0x40000000, .reset none] }.host =
      [.accept 0x40000000] ++ .reset none :: [] ∧
    { midCommand (block n1 []) [.strobeRelease] with host := [.accept 0x40000000, .proceed 1] }.host =
      [.accept 0x40000000] ++ .proceed 1 :: [] := ⟨by decide, ⟨_, rfl⟩, by decide, rfl, rfl⟩
theorem witness_ResponseMustBeTaken :
    { block n1 [] with rsp := some 0x01, rspValid := true }.seq = [] ∧
    { block n1 [] with rsp := some 0x01, rspValid := true }.rspValid = true ∧
    (∃ t, step { block n1 [] with rsp := some 0x01, rspValid := true, host := [.takeResponse] } = .next t) ∧
    (∀ e ∈ [HostEvent.command 0x40000000, .accept 0xA0000000], e.isWord = true) ∧
    { block n1 [] with rsp := some 0x01, rspValid := true, host := [.command 0x40000000, .takeResponse] }.host =
      [.command 0x40000000] ++ .takeResponse :: [] := ⟨by decide, by decide, ⟨_, rfl⟩, by decide, rfl⟩
/-- Each rejection condition at its first value, two of them at once, and an illegal word. -/
theorem witness_RejectionsAreSilent :
    rejections (block n2 []).cfg (.setpix 16 8) = [.rejY, .rejX] ∧
    rejections (block n2 []).cfg (.getpix 15 7) = [] ∧ rejections (legacyBlock n2 []).cfg (.clrpix 15 7) = [.rejX] ∧
    rejections (legacyBlock n2 []).cfg (.clrpix 14 7) = [] ∧ rejections (block n2 []).cfg (.fbrd 16) = [.rejIndex] ∧
    rejections (block n2 []).cfg (.addr 2 0 0) = [.rejChip] ∧ rejections (block n2 []).cfg (.setbrt 16) = [.rejLevel] ∧
    rejections (block n2 []).cfg (.setbrt 15) = [] ∧ wordRejections (block n2 []).cfg 0xE0000000 = [.illegal] := by
  decide
theorem witness_StepRunsDecodedCommand :
    (State.reset.withFetchWord 32 0xA0000000).host = [.command 0xA0000000] ∧
    (State.reset.withFetchWord 32 0xA0000000).cmdReady = true ∧ decode 0xA0000000 = .ok .refdisp := by decide
theorem witness_IdleBlockWaits : State.reset.host = [] := by decide
theorem witness_WritesAreSeenAtOnce : validPixel (block n2 []).cfg 15 7 = true ∧ 15 < 8 * (block n2 []).n := by decide
theorem witness_OutOnlyGrows : ∃ t, step (State.reset.withFetchWord 32 0xA0000000) = .next t := ⟨_, rfl⟩
/-- A state in the middle of a command, its line low, that meets the invariant and takes a step. -/
theorem witness_StepKeepsInvariant :
    State.Inv { block n1 [(7, 0x80)] with strobe := false, seq := [.strobeRelease], host := [.proceed 1] } ∧
    ∃ t, step { block n1 [(7, 0x80)] with strobe := false, seq := [.strobeRelease], host := [.proceed 1] } =
      .next t :=
  ⟨⟨by decide, by decide, by decide, by decide, by decide, by decide⟩, _, rfl⟩
theorem witness_ResetHasInvariant :
    Chain.Inv (blankChain 2) ∧
    State.construct 2 {} (blankChain 2) = .ok (State.ofConfig { chips := n2 } (blankChain 2)) :=
  ⟨⟨by decide, by decide⟩, by decide⟩
theorem witness_StrobeHighAtCommandBoundary : State.Inv (block n2 [(0, 0x01)]) ∧ (block n2 [(0, 0x01)]).cmdReady = true :=
  ⟨⟨by decide, by decide, by decide, by decide, by decide, by decide⟩, by decide⟩

end Sys2Proof.Machine.Tests
end

section
/-! PROOF. The command-level step of 00_scope.md R12: a step of a ready block runs the decoded command, and sending a
command's tokens in portions ends where the one atomic step does. -/

namespace Sys2Proof.Machine

/-- A word that decodes to a command runs it (30_encoding.md R65). -/
theorem runWord_of_decode {w : Word} {i : Instr} (s : State) (hd : decode w = .ok i) : runWord w s = exec i s := by
  simp [runWord, hd]

/-- Accepting a command leaves it in progress: its effect on the block is done, its tokens are still to go out. -/
theorem acceptWord_of_decode {w : Word} {i : Instr} {s t : State} (hd : decode w = .ok i) (ht : exec i s = .next t) :
    acceptWord w s = .next (s.inProgress t (responds i)) := by
  simp [acceptWord, hd, ht]

/-- A command in progress that gives a response offers the one its whole effect leaves. -/
theorem State.inProgress_rspData (s t : State) : (s.inProgress t true).rspData = t.rsp := rfl

/-- A command in progress waits with its own tokens; the wire and the chain are as before it. -/
theorem State.inProgress_emitAll (s : State) (fb : Memory) (rsp : Option Byte) (ts : List Token) (r : Bool) :
    s.inProgress (({ s with fb := fb, rsp := rsp } : State).emitAll ts) r =
      { s with fb := fb, rsp := rsp, seq := ts, rspValid := r } := by
  simp [State.inProgress, State.emitAll_eq]

/-- Two portions one after the other are one portion of both sizes. -/
theorem State.proceed_proceed (s : State) (j k : Nat) : (s.proceed j).proceed k = s.proceed (j + k) := by
  simp [State.proceed, List.take_add, State.emitAll_append]

/-- However the tokens are cut into portions, only how many go out in all matters. -/
theorem State.foldl_proceed (s : State) (portions : List Nat) :
    portions.foldl State.proceed s = s.proceed portions.sum := by
  induction portions generalizing s with
  | nil => rfl
  | cons k ks ih => rw [List.foldl_cons, ih, State.proceed_proceed, List.sum_cons]

/-- A portion as large as what waits sends all of it. -/
theorem State.proceed_of_length_le {s : State} {k : Nat} (h : s.seq.length ≤ k) :
    s.proceed k = { s.emitAll s.seq with seq := [] } := by
  rw [State.proceed, List.take_of_length_le h, List.drop_of_length_le h]

/-- A command accepted at a ready block, all its tokens sent and its response taken, has had its whole effect. -/
theorem State.inProgress_proceed_taken {s : State} {fb : Memory} {rsp : Option Byte} {ts : List Token} {k : Nat}
    (r : Bool) (hr : s.cmdReady = true) (hk : ts.length ≤ k) :
    { (s.inProgress (({ s with fb := fb, rsp := rsp } : State).emitAll ts) r).proceed k with rspValid := false } =
      ({ s with fb := fb, rsp := rsp } : State).emitAll ts := by
  obtain ⟨hseq, hvalid⟩ := s.cmdReady_iff.mp hr
  rw [State.inProgress_emitAll, State.proceed_of_length_le hk]
  simp [State.emitAll_eq, hseq, hvalid]

/-- Settles O53: a ready block serves the word first, and serving a word runs what it decodes to. -/
theorem stepRunsDecodedCommand : Obligations.StepRunsDecodedCommand := by
  intro s w i rest hhost hready hd
  calc step s = serve (.command w) (s.setHost rest) := step_of_ready hready hhost
    _ = exec i (s.setHost rest) := runWord_of_decode _ hd

/-- Settles O49: portions add up to one portion, and one that reaches the last token completes the command. -/
theorem atomicStepIsSound : Obligations.AtomicStepIsSound := by
  intro s w i hready hd
  refine ⟨_, _, acceptWord_of_decode hd (exec_eq i s), exec_eq i s, fun hresp => ?_, fun portions hsum => ?_⟩
  · rw [hresp, State.inProgress_rspData]
  · have hall : (tokensOf s i).length ≤ portions.sum := by simpa using hsum
    rw [State.foldl_proceed]
    exact State.inProgress_proceed_taken _ hready hall

end Sys2Proof.Machine
end

section
/-! PROOF. The state of 10_state.md: what a step can answer, the invariant that every step keeps, the values after
construction, and the chain that the block never reads. -/

namespace Sys2Proof.Machine

/-! ### What a step can answer -/

/-- A word that is no command changes nothing (30_encoding.md R64; log 7). -/
theorem runWord_of_illegal {w : Word} {e : IllegalWord} (s : State) (hd : decode w = .error e) :
    runWord w s = .next s := by
  simp [runWord, hd]

/-- Accepting a word that is no command changes nothing (30_encoding.md R64; log 7). -/
theorem acceptWord_of_illegal {w : Word} {e : IllegalWord} (s : State) (hd : decode w = .error e) :
    acceptWord w s = .next s := by
  simp [acceptWord, hd]

/-- The state right after a command has been accepted: its framebuffer and response are there, its tokens wait. -/
theorem acceptWord_eq_of_decode {w : Word} {i : Instr} (s : State) (hd : decode w = .ok i) :
    acceptWord w s =
      .next { s with fb := fbAfter s i, rsp := rspAfter s i, seq := tokensOf s i, rspValid := responds i } := by
  rw [acceptWord_of_decode hd (exec_eq i s), State.inProgress_emitAll]

/-- A response can be taken only while one is offered, and taking it withdraws the offer. -/
theorem takeResponse_eq_next {s t : State} (h : takeResponse s = .next t) :
    s.rspValid = true ∧ t = { s with rspValid := false } := by
  unfold takeResponse at h
  split at h
  · next hv => exact ⟨hv, by cases h; rfl⟩
  · cases h

/-- Reset, field by field: the values of construction, with a release on the line and in OUT if the line was low
(70_reset_and_hazards.md R210, R211). -/
theorem State.applyReset_eq (s : State) :
    s.applyReset =
      { State.ofConfig s.cfg (if s.strobe then s.chain else s.chain.observe s.cfg.cmdNoop false .strobeRelease) with
        out := s.out ++ (if s.strobe then [] else [.strobeRelease])
        host := s.host } := by
  unfold State.applyReset
  cases hs : s.strobe <;> simp [hs]

/-- A step that answers a state has waited, or has served one event: a word only at a ready block. -/
theorem step_eq_next {s t : State} (h : step s = .next t) :
    t = s ∨ ∃ e rest, (e.isWord = true → s.cmdReady = true) ∧ serve e (s.setHost rest) = .next t := by
  cases hn : nextEvent s.cmdReady s.host with
  | none =>
    rw [step_eq_self hn] at h
    exact .inl (by cases h; rfl)
  | some served =>
    obtain ⟨e, rest⟩ := served
    obtain ⟨-, -, -, -, -, hready⟩ := nextEvent_eq_some hn
    exact .inr ⟨e, rest, hready, step_eq_serve hn ▸ h⟩

/-! ### The construction parameters and OUT -/

/-- No event changes the construction parameters or removes a token from OUT (10_state.md R26, R28). -/
theorem serve_cfg_out {e : HostEvent} {s t : State} (h : serve e s = .next t) :
    t.cfg = s.cfg ∧ s.out <+: t.out := by
  cases e with
  | command w =>
    change runWord w s = .next t at h
    cases hd : decode w with
    | error _ => rw [runWord_of_illegal s hd] at h; cases h; simp
    | ok i => rw [runWord_of_decode s hd, exec_eq] at h; cases h; simp
  | accept w =>
    change acceptWord w s = .next t at h
    cases hd : decode w with
    | error _ => rw [acceptWord_of_illegal s hd] at h; cases h; simp
    | ok i => rw [acceptWord_eq_of_decode s hd] at h; cases h; simp
  | proceed k => cases h; simp [State.proceed]
  | takeResponse => obtain ⟨-, rfl⟩ := takeResponse_eq_next h; simp
  | reset presented => cases h; simp [State.applyReset_eq]

/-- Settles O56: a step waits or serves an event, and no event shortens OUT or touches the parameters. -/
theorem outOnlyGrows : Obligations.OutOnlyGrows := by
  intro s t h
  rcases step_eq_next h with rfl | ⟨e, rest, -, hserve⟩
  · exact ⟨rfl, List.prefix_rfl⟩
  · exact serve_cfg_out (s := s.setHost rest) hserve

/-! ### The framebuffer stays canonical and inside its length -/

/-- The framebuffer clauses of the invariant: canonical, and every index below `k`. -/
def Memory.WfBelow (k : Nat) (m : Memory) : Prop := m.wf ∧ ∀ c ∈ m, c.1 < k

theorem Memory.wfBelow_write {k a : Nat} {m : Memory} (v : Byte) (ha : a < k) (h : m.WfBelow k) :
    (m.write a v).WfBelow k :=
  ⟨Memory.wf_write a v h.1, Memory.lt_of_mem_write ha h.2⟩

theorem Memory.wfBelow_ofFn (k : Nat) (f : Nat → Byte) : (Memory.ofFn k f).WfBelow k :=
  ⟨Memory.wf_ofFn k f, fun _ hc => (Memory.mem_ofFn.mp hc).1⟩

/-- Both bound policies keep x inside the pixel grid: 7·N < 8·N because N is not 0 (20_memory.md R43). -/
theorem lt_of_xok {cfg : Config} {x : Nat} (h : xok cfg x = true) : x < 8 * cfg.n := by
  have hn := cfg.n_pos
  unfold xok at h
  split at h <;> simp only [decide_eq_true_eq] at h <;> omega

/-- The byte of a valid pixel lies in the framebuffer (20_memory.md R41, R43). -/
theorem idx_lt_of_validPixel {cfg : Config} {x y : Nat} (h : validPixel cfg x y = true) :
    idx cfg.n x y < cfg.fbBytes := by
  simp only [validPixel, Bool.and_eq_true, decide_eq_true_eq] at h
  obtain ⟨hy, hx⟩ := h
  have hcol : x < 8 * cfg.n := lt_of_xok hx
  have hrow : cfg.n * y ≤ cfg.n * 7 := Nat.mul_le_mul_left _ hy
  simp only [idx, chipIndex, Config.fbBytes_eq]
  omega

/-- No command leaves the canonical form or writes outside the framebuffer (10_state.md R21). -/
theorem fbAfter_wfBelow {s : State} (i : Instr) (h : s.fb.WfBelow s.cfg.fbBytes) :
    (fbAfter s i).WfBelow s.cfg.fbBytes := by
  cases i with
  | setpix x y | clrpix x y =>
    simp only [fbAfter]
    split
    · next hv => exact Memory.wfBelow_write _ (idx_lt_of_validPixel hv) h
    · exact h
  | clrall | shr | shl => exact Memory.wfBelow_ofFn _ _
  | getpix | bcast | addr | refrow | refdisp | setbrt | init | fbrd => exact h

/-! ### Every response offered is there -/

/-- A command that gives a response leaves one (10_state.md R29). -/
theorem rspAfter_ne_none {s : State} {i : Instr} (h : responds i = true) : rspAfter s i ≠ none := by
  cases i with
  | getpix | fbrd => exact Option.some_ne_none _
  | setpix | clrpix | clrall | shr | shl | bcast | addr | refrow | refdisp | setbrt | init => cases h

/-! ### A command's tokens leave the strobe line high -/

/-- A latch ends with the line high, whatever went before (42_chain_protocol.md R134). -/
theorem strobeAfter_append_latchTokens (ts : List Token) (l : Bool) : strobeAfter (ts ++ latchTokens) l = true := by
  simp [strobeAfter_append, latchTokens, Token.levelAfter]

/-- Lists of tokens that each keep a high line high do so one after another. -/
theorem strobeAfter_flatMap_true {α : Type} {f : α → List Token} (xs : List α)
    (h : ∀ x, strobeAfter (f x) true = true) : strobeAfter (xs.flatMap f) true = true := by
  induction xs with
  | nil => rfl
  | cons x xs ih => rw [List.flatMap_cons, strobeAfter_append, h, ih]

theorem strobeAfter_bcastTokens (cfg : Config) (cmd data : Byte) (l : Bool) :
    strobeAfter (bcastTokens cfg cmd data) l = true :=
  strobeAfter_append_latchTokens _ _

/-- Every command that starts with the line high ends with the line high (10_state.md R27). -/
theorem strobeAfter_tokensOf (s : State) (i : Instr) : strobeAfter (tokensOf s i) true = true := by
  cases i with
  | bcast cmd data => exact strobeAfter_bcastTokens _ _ _ _
  | addr chip cmd data =>
    simp only [tokensOf, addrTokens]
    split
    · exact strobeAfter_append_latchTokens _ _
    · rfl
  | refrow row => exact strobeAfter_append_latchTokens _ _
  | refdisp => exact strobeAfter_flatMap_true _ fun _ => strobeAfter_append_latchTokens _ _
  | setbrt level =>
    simp only [tokensOf, setbrtTokens]
    split
    · exact strobeAfter_bcastTokens _ _ _ _
    · rfl
  | init =>
    simp only [tokensOf, initTokens, strobeAfter_append, strobeAfter_bcastTokens]
    exact strobeAfter_flatMap_true _ fun _ => strobeAfter_bcastTokens _ _ _ _
  | setpix | clrpix | getpix | clrall | shr | shl | fbrd => rfl

/-! ### The invariant -/

/-- A ready block that meets the invariant has its line high: no token is left to raise it (10_state.md R27). -/
theorem State.Inv.strobe_of_cmdReady {s : State} (h : s.Inv) (hr : s.cmdReady = true) : s.strobe = true := by
  obtain ⟨-, -, -, hstrobe, -⟩ := h
  rwa [(s.cmdReady_iff.mp hr).1, strobeAfter_nil] at hstrobe

/-- A new block in front of a chain with canonical data meets the invariant (10_state.md R33). -/
theorem State.inv_ofConfig (cfg : Config) {c : Chain} (h : c.Inv) : (State.ofConfig cfg c).Inv :=
  ⟨⟨.nil, by simp⟩, by simp, by simp, rfl, h⟩

/-- Accepting a command keeps the invariant: the line is high, and the tokens that wait leave it high. -/
theorem acceptWord_keeps_inv {w : Word} {s t : State} (hs : s.Inv) (hr : s.cmdReady = true)
    (h : acceptWord w s = .next t) : t.Inv := by
  cases hd : decode w with
  | error _ => rw [acceptWord_of_illegal s hd] at h; cases h; exact hs
  | ok i =>
    rw [acceptWord_eq_of_decode s hd] at h
    cases h
    have hhigh := hs.strobe_of_cmdReady hr
    obtain ⟨hwf, hbelow, -, -, hchain⟩ := hs
    obtain ⟨hwf', hbelow'⟩ := fbAfter_wfBelow i ⟨hwf, hbelow⟩
    exact ⟨hwf', hbelow', rspAfter_ne_none, by simpa [hhigh] using strobeAfter_tokensOf s i, hchain⟩

/-- Sending tokens of the command in progress keeps the invariant: where the line will end has not changed. -/
theorem State.inv_proceed {s : State} (k : Nat) (hs : s.Inv) : (s.proceed k).Inv := by
  obtain ⟨hwf, hbelow, hrsp, hstrobe, hchain⟩ := hs
  have hend : strobeAfter (s.seq.drop k) (strobeAfter (s.seq.take k) s.strobe) = true := by
    rw [← strobeAfter_append, List.take_append_drop, hstrobe]
  rw [State.proceed, State.emitAll_eq]
  exact ⟨hwf, hbelow, hrsp, hend, Chain.inv_feed _ _ _ hchain⟩

/-- Withdrawing the offer of a response keeps the invariant. -/
theorem State.inv_withdraw {s : State} (hs : s.Inv) : State.Inv { s with rspValid := false } := by
  obtain ⟨hwf, hbelow, -, hstrobe, hchain⟩ := hs
  exact ⟨hwf, hbelow, by simp, hstrobe, hchain⟩

/-- A whole command keeps the invariant: it is the same command accepted, sent to its last token and its response
taken (30_encoding.md R60; log 6). -/
theorem runWord_keeps_inv {w : Word} {s t : State} (hs : s.Inv) (hr : s.cmdReady = true)
    (h : runWord w s = .next t) : t.Inv := by
  cases hd : decode w with
  | error _ => rw [runWord_of_illegal s hd] at h; cases h; exact hs
  | ok i =>
    rw [runWord_of_decode s hd, exec_eq] at h
    cases h
    have haccepted := acceptWord_keeps_inv hs hr (acceptWord_of_decode hd (exec_eq i s))
    rw [← State.inProgress_proceed_taken (responds i) hr le_rfl]
    exact State.inv_withdraw (State.inv_proceed _ haccepted)

/-- Reset establishes the invariant of everything but the chain, and keeps the chain's data canonical. -/
theorem State.inv_applyReset {s : State} (hs : s.Inv) : s.applyReset.Inv := by
  obtain ⟨-, -, -, -, hchain⟩ := hs
  rw [State.applyReset_eq]
  refine State.inv_ofConfig s.cfg ?_
  split
  · exact hchain
  · exact Chain.inv_observe _ _ _ hchain

/-- Every event the block can serve keeps the invariant. -/
theorem serve_keeps_inv {e : HostEvent} {s t : State} (hs : s.Inv) (hr : e.isWord = true → s.cmdReady = true)
    (h : serve e s = .next t) : t.Inv := by
  cases e with
  | command w => exact runWord_keeps_inv hs (hr rfl) h
  | accept w => exact acceptWord_keeps_inv hs (hr rfl) h
  | proceed k => cases h; exact State.inv_proceed k hs
  | takeResponse => obtain ⟨-, rfl⟩ := takeResponse_eq_next h; exact State.inv_withdraw hs
  | reset presented => cases h; exact State.inv_applyReset hs

/-- Settles O57: a step waits or serves an event, and the invariant does not speak of the events still to come. -/
theorem stepKeepsInvariant : Obligations.StepKeepsInvariant := by
  intro s t hs h
  rcases step_eq_next h with rfl | ⟨e, rest, hready, hserve⟩
  · exact hs
  · have hs' : (s.setHost rest).Inv := hs
    exact serve_keeps_inv hs' hready hserve

/-- Settles O59: the line is high at a ready block, and a command's tokens leave it high. -/
theorem strobeHighAtCommandBoundary : Obligations.StrobeHighAtCommandBoundary := by
  intro s hs hr
  have hhigh := hs.strobe_of_cmdReady hr
  have hidle := (s.cmdReady_iff.mp hr).1
  exact ⟨hhigh, fun i => ⟨_, exec_eq i s, by simp [hhigh, strobeAfter_tokensOf], by simp [hidle]⟩⟩

/-! ### Construction -/

/-- Construction that succeeds gives a new block with these parameters in front of the chain. -/
theorem State.construct_eq_ok {n : Nat} {o : Options} {c : Chain} {s : State} (h : State.construct n o c = .ok s) :
    ∃ cfg : Config, cfg.n = n ∧ cfg.toOptions = o ∧ s = State.ofConfig cfg c := by
  unfold State.construct at h
  split at h
  · cases h
  · split at h
    · cases h; exact ⟨_, rfl, rfl, rfl⟩
    · cases h

/-- Settles O46: the fields of a new block. -/
theorem constructedState : Obligations.ConstructedState := by
  intro n o c s h
  obtain ⟨cfg, -, -, rfl⟩ := State.construct_eq_ok h
  simp [State.cmdReady_iff]

/-- Settles O58: State.reset and every constructed block are new blocks in front of a canonical chain. -/
theorem resetHasInvariant : Obligations.ResetHasInvariant := by
  refine ⟨State.inv_ofConfig _ ⟨by simp, .nil⟩, fun n o c s hc h => ?_⟩
  obtain ⟨cfg, -, -, rfl⟩ := State.construct_eq_ok h
  exact State.inv_ofConfig cfg hc

/-! ### The chain is never read -/

/-- The same outcome, but for the chain of the state it answers. -/
def outcomeWithChain (c : Chain) : Host.Outcome State Fault Refusal → Host.Outcome State Fault Refusal
  | .next t => .next { t with chain := c }
  | .fault r => .fault r
  | .refused r => .refused r

/-- A command's framebuffer, response and tokens do not depend on the chain (20_memory.md R55). -/
theorem exec_withChain (i : Instr) (s : State) (c : Chain) :
    ∃ c', exec i { s with chain := c } = outcomeWithChain c' (exec i s) :=
  ⟨Chain.feed s.cfg.cmdNoop s.strobe c (tokensOf s i), by simp only [exec_eq, State.emitAll_eq]; rfl⟩

/-- No event makes the block read the chain (10_state.md R31). -/
theorem serve_withChain (e : HostEvent) (s : State) (c : Chain) :
    ∃ c', serve e { s with chain := c } = outcomeWithChain c' (serve e s) := by
  cases e with
  | command w =>
    change ∃ c', runWord w _ = outcomeWithChain c' (runWord w s)
    cases hd : decode w with
    | error _ => exact ⟨c, by simp only [runWord_of_illegal _ hd, outcomeWithChain]⟩
    | ok i => simpa only [runWord_of_decode _ hd] using exec_withChain i s c
  | accept w =>
    change ∃ c', acceptWord w _ = outcomeWithChain c' (acceptWord w s)
    cases hd : decode w with
    | error _ => exact ⟨c, by simp only [acceptWord_of_illegal _ hd, outcomeWithChain]⟩
    | ok i => exact ⟨c, by rw [acceptWord_eq_of_decode _ hd, acceptWord_eq_of_decode _ hd]; rfl⟩
  | proceed k =>
    refine ⟨Chain.feed s.cfg.cmdNoop s.strobe c (s.seq.take k), ?_⟩
    simp only [serve, State.proceed, State.emitAll_eq, outcomeWithChain]
  | takeResponse =>
    refine ⟨c, ?_⟩
    change takeResponse _ = outcomeWithChain c (takeResponse s)
    unfold takeResponse
    split <;> rfl
  | reset presented =>
    refine ⟨if s.strobe then c else c.observe s.cfg.cmdNoop false .strobeRelease, ?_⟩
    simp only [serve, State.applyReset_eq, outcomeWithChain]
    rfl

/-- A step of the block in front of another chain is the same step but for the chain. -/
theorem step_withChain (s : State) (c : Chain) :
    ∃ c', step { s with chain := c } = outcomeWithChain c' (step s) := by
  cases hn : nextEvent s.cmdReady s.host with
  | none => exact ⟨c, by rw [step_eq_self hn, step_eq_self (s := { s with chain := c }) hn]; rfl⟩
  | some served =>
    rw [step_eq_serve hn, step_eq_serve (s := { s with chain := c }) hn]
    exact serve_withChain _ (s.setHost served.2) c

/-- Settles O36: the two steps have one outcome, up to the chain of the next state. -/
theorem noFeedbackFromChain : Obligations.NoFeedbackFromChain := by
  intro s c
  obtain ⟨c', hstep⟩ := step_withChain s c
  exact ⟨fun t ht => ⟨c', by rw [hstep, ht]; rfl⟩, fun r hr => by rw [hstep, hr]; rfl⟩

end Sys2Proof.Machine
end

section
/-! PROOF. The pixel addressing of 20_memory.md: the grid and the framebuffer's bits correspond one to one, and which
coordinates each bound policy accepts. -/

namespace Sys2Proof.Machine

/-! ### From a pixel to its byte and bit -/

theorem bitOf_lt (x : Nat) : bitOf x < 8 := by unfold bitOf; omega

theorem chipIndex_lt {n x : Nat} (h : x < 8 * n) : chipIndex x < n := Nat.div_lt_of_lt_mul h

/-- A column is its chip's eight columns, counted from the most significant bit (20_memory.md R44). -/
theorem column_eq (x : Nat) : 8 * chipIndex x + (7 - bitOf x) = x := by unfold chipIndex bitOf; omega

/-- The byte of a pixel lies in its row: the chip index stays below N (20_memory.md R44). -/
theorem idx_div {n x : Nat} (y : Nat) (h : x < 8 * n) : idx n x y / n = y := by
  have hc := chipIndex_lt h
  rw [idx, Nat.add_mul_div_left _ _ (Nat.zero_lt_of_lt hc), Nat.div_eq_of_lt hc, Nat.zero_add]

/-- The byte of a pixel stands in its row at the place of its chip (20_memory.md R44). -/
theorem idx_mod {n x : Nat} (y : Nat) (h : x < 8 * n) : idx n x y % n = chipIndex x := by
  rw [idx, Nat.add_mul_mod_self_left, Nat.mod_eq_of_lt (chipIndex_lt h)]

theorem idx_lt {n x y : Nat} (hn : 0 < n) (hx : x < 8 * n) (hy : y < 8) : idx n x y < 8 * n := by
  rwa [← Nat.div_lt_iff_lt_mul hn, idx_div y hx]

/-! ### From a byte and a bit to the pixel -/

theorem chipIndex_column {k : Nat} (c : Nat) (hk : k < 8) : chipIndex (8 * c + (7 - k)) = c := by
  unfold chipIndex; omega

theorem bitOf_column {k : Nat} (c : Nat) (hk : k < 8) : bitOf (8 * c + (7 - k)) = k := by
  unfold bitOf; omega

/-- A chip below N has its eight columns in the grid. -/
theorem column_lt {n c : Nat} (k : Nat) (hc : c < n) : 8 * c + (7 - k) < 8 * n := by omega

theorem idx_column {k : Nat} (n i : Nat) (hk : k < 8) : idx n (8 * (i % n) + (7 - k)) (i / n) = i := by
  rw [idx, chipIndex_column _ hk, Nat.mod_add_div]

/-- Settles O9: a byte's row and place in the row give back y and the chip, and the chip and the bit give back x. -/
theorem pixelAddressBijection : Obligations.PixelAddressBijection := by
  intro cfg
  refine ⟨fun x y hx hy => ?_, fun i k hi hk => ?_⟩
  · have hcolumn : 8 * (idx cfg.n x y % cfg.n) + (7 - bitOf x) = x := by rw [idx_mod y hx, column_eq]
    exact ⟨idx_lt cfg.n_pos hx hy, bitOf_lt x, idx_div y hx, hcolumn⟩
  · have hrow : i / cfg.n < 8 := (Nat.div_lt_iff_lt_mul cfg.n_pos).mpr hi
    exact ⟨column_lt k (Nat.mod_lt i cfg.n_pos), hrow, idx_column cfg.n i hk, bitOf_column _ hk⟩

/-! ### The bound policies -/

theorem xok_of_exact {cfg : Config} (h : cfg.xbound = .exact) (x : Nat) : xok cfg x = decide (x < 8 * cfg.n) := by
  rw [xok, h]

theorem xok_of_legacy {cfg : Config} (h : cfg.xbound = .legacy) (x : Nat) : xok cfg x = decide (x ≤ 7 * cfg.n) := by
  rw [xok, h]

theorem validPixel_iff {cfg : Config} {x y : Nat} : validPixel cfg x y = true ↔ xok cfg x = true ∧ y ≤ 7 := by
  simp [validPixel, and_comm]

theorem validPixel_iff_of_exact {cfg : Config} (h : cfg.xbound = .exact) {x y : Nat} :
    validPixel cfg x y = true ↔ x < 8 * cfg.n ∧ y < 8 := by
  rw [validPixel_iff, xok_of_exact h, decide_eq_true_iff, Nat.lt_succ_iff]

theorem validPixel_iff_of_legacy {cfg : Config} (h : cfg.xbound = .legacy) {x y : Nat} :
    validPixel cfg x y = true ↔ x ≤ 7 * cfg.n ∧ y ≤ 7 := by
  rw [validPixel_iff, xok_of_legacy h, decide_eq_true_iff]

/-- Inside the grid LEGACY drops exactly the columns from 7·N + 1 on (20_memory.md R43). -/
theorem validPixel_eq_false_iff_of_legacy {cfg : Config} (h : cfg.xbound = .legacy) {x y : Nat}
    (hx : x < 8 * cfg.n) (hy : y ≤ 7) :
    validPixel cfg x y = false ↔ 7 * cfg.n + 1 ≤ x ∧ x ≤ 8 * cfg.n - 1 := by
  rw [← Bool.not_eq_true, validPixel_iff_of_legacy h]
  omega

/-- EXACT accepts what any policy accepts: every policy stays inside the grid (20_memory.md R43). -/
theorem validPixel_exact_of_validPixel {cfg : Config} {x y : Nat} (h : validPixel cfg x y = true) :
    validPixel { cfg with xbound := .exact } x y = true := by
  obtain ⟨hx, hy⟩ := validPixel_iff.mp h
  have hgrid : x < 8 * cfg.n := lt_of_xok hx
  exact (validPixel_iff_of_exact rfl).mpr ⟨hgrid, Nat.lt_succ_of_le hy⟩

/-- Settles O10: each policy's condition on x, and 7·N < 8·N. -/
theorem boundPolicy : Obligations.BoundPolicy :=
  ⟨fun _ _ _ h => validPixel_iff_of_exact h, fun _ _ _ h => validPixel_iff_of_legacy h,
    fun _ _ _ h => validPixel_eq_false_iff_of_legacy h,
    fun cfg _ _ h => validPixel_exact_of_validPixel (cfg := { cfg with xbound := .legacy }) h, rfl⟩

end Sys2Proof.Machine
end

section
/-! PROOF. The encoding of 30_encoding.md: a word decodes to a command exactly when it has the command's OP, a zero
reserved field and the command's operands, and that word is the command's own. -/

namespace Sys2Proof

/-! ### The command of a row with the operands of a word -/

/-- The command of `i`'s row of the opcode table with the operands that the word holds (30_encoding.md R63). -/
def Instr.withOperands (w : Word) : Instr → Instr
  | .setpix _ _ => .setpix (field w 0 16) (field w 16 4)
  | .clrpix _ _ => .clrpix (field w 0 16) (field w 16 4)
  | .getpix _ _ => .getpix (field w 0 16) (field w 16 4)
  | .clrall => .clrall
  | .shr => .shr
  | .shl => .shl
  | .bcast _ _ => .bcast (cmdField w) (dataField w)
  | .addr _ _ _ => .addr (field w 16 12) (cmdField w) (dataField w)
  | .refrow _ => .refrow (field w 0 3)
  | .refdisp => .refdisp
  | .setbrt _ => .setbrt (field w 0 8)
  | .init => .init
  | .fbrd _ => .fbrd (field w 0 16)

@[simp] theorem Instr.withOperands_row (w : Word) (i : Instr) : (i.withOperands w).row = i.row := by
  cases i <;> rfl

@[simp] theorem Instr.withOperands_idem (w : Word) (i : Instr) :
    (i.withOperands w).withOperands w = i.withOperands w := by
  cases i <;> rfl

theorem field_lt (w : Word) (lo len : Nat) : field w lo len < 2 ^ len := (w.extractLsb' lo len).isLt

theorem cmdField_toNat (w : Word) : (cmdField w).toNat = w.toNat / 2 ^ 8 % 2 ^ 8 := field_eq w 8 8

theorem dataField_toNat (w : Word) : (dataField w).toNat = w.toNat % 2 ^ 8 :=
  (field_eq w 0 8).trans (by rw [Nat.pow_zero, Nat.div_one])

/-- A field's value fits the field (30_encoding.md R62, R67). -/
theorem Instr.withOperands_wellFormed (w : Word) (i : Instr) : (i.withOperands w).wellFormed = true := by
  cases i with
  | setpix | clrpix | getpix =>
    exact Bool.and_eq_true_iff.mpr ⟨decide_eq_true (field_lt w 0 16), decide_eq_true (field_lt w 16 4)⟩
  | addr => exact decide_eq_true (field_lt w 16 12)
  | refrow => exact decide_eq_true (field_lt w 0 3)
  | setbrt => exact decide_eq_true (field_lt w 0 8)
  | fbrd => exact decide_eq_true (field_lt w 0 16)
  | clrall | shr | shl | bcast | refdisp | init => rfl

/-! ### Decoding by OP -/

/-- A word with the OP of a row decodes to the row's command with the word's operands, if the row's reserved bits are
zero (30_encoding.md R65). -/
theorem decode_of_opField {w : Word} {i : Instr} (h : opField w = opField i.row.pattern) :
    decode w = withFormat i.row.fmt w (i.withOperands w) := by
  unfold decode
  rw [h]
  cases i <;> simp only [Instr.row] <;> rfl

theorem opField_lt (w : Word) : opField w < 16 := field_lt w 28 4

/-- The OPs 0x1 to 0xD each have a row (30_encoding.md R61). -/
theorem exists_row_of_opField {w : Word} (h0 : opField w ≠ 0) (h14 : opField w < 14) :
    ∃ i : Instr, opField w = opField i.row.pattern := by
  have hall : ∀ op < 14, op ≠ 0 → ∃ r ∈ opcodeTable, op = opField r.pattern := by decide
  obtain ⟨r, hr, hop⟩ := hall _ h14 h0
  obtain ⟨i, -, rfl⟩ := List.mem_map.mp hr
  exact ⟨i, hop⟩

/-- The OPs 0x0, 0xE and 0xF are no command's (30_encoding.md R61, R64). -/
theorem decode_of_reservedOp {w : Word} (h : opField w = 0 ∨ 14 ≤ opField w) : decode w = .error .reservedOp := by
  have hlt := opField_lt w
  have hop : opField w = 0 ∨ opField w = 14 ∨ opField w = 15 := by omega
  unfold decode
  rcases hop with hop | hop | hop <;> rw [hop] <;> rfl

/-- A word with the OP of a row and a non-zero reserved field is no command's (30_encoding.md R64). -/
theorem decode_of_reservedField {w : Word} {i : Instr} (hop : opField w = opField i.row.pattern)
    (hres : w &&& i.row.fmt.reservedMask ≠ 0) : decode w = .error .reservedField := by
  rw [decode_of_opField hop, withFormat, if_neg hres]

/-- A word with the OP of a row and a zero reserved field is the row's command with the word's operands. -/
theorem decode_of_row {w : Word} {i : Instr} (hop : opField w = opField i.row.pattern)
    (hres : w &&& i.row.fmt.reservedMask = 0) : decode w = .ok (i.withOperands w) := by
  rw [decode_of_opField hop, withFormat, if_pos hres]

/-- Everything that decoding to a command says of the word: OP, the reserved field and the operands
(30_encoding.md R65). -/
theorem decode_eq_ok_iff {w : Word} {i : Instr} :
    decode w = .ok i ↔
      opField w = opField i.row.pattern ∧ w &&& i.row.fmt.reservedMask = 0 ∧ i.withOperands w = i := by
  constructor
  · intro hd
    by_cases hbad : opField w = 0 ∨ 14 ≤ opField w
    · rw [decode_of_reservedOp hbad] at hd
      cases hd
    · obtain ⟨h0, h14⟩ := not_or.mp hbad
      obtain ⟨j, hop⟩ := exists_row_of_opField h0 (Nat.lt_of_not_le h14)
      by_cases hres : w &&& j.row.fmt.reservedMask = 0
      · rw [decode_of_row hop hres] at hd
        cases hd
        simp [hop, hres]
      · rw [decode_of_reservedField hop hres] at hd
        cases hd
  · rintro ⟨hop, hres, hops⟩
    rw [decode_of_row hop hres, hops]

/-! ### Operands and words -/

/-- The word of a well-formed command holds the command's operands (30_encoding.md R62, R63). -/
theorem Instr.withOperands_encode {i : Instr} (h : i.wellFormed = true) : i.withOperands (encode i) = i := by
  cases i with
  | setpix x y | clrpix x y | getpix x y =>
    simp only [wellFormed, Bool.and_eq_true, decide_eq_true_eq] at h
    simp only [withOperands, field_eq, encode, encodeP_toNat, BitVec.toNat_ofNat, BitVec.ofNat_eq_ofNat]
    congr 1 <;> omega
  | bcast cmd data =>
    have h1 := cmd.isLt
    have h2 := data.isLt
    refine congrArg₂ Instr.bcast (BitVec.eq_of_toNat_eq ?_) (BitVec.eq_of_toNat_eq ?_)
    · rw [cmdField_toNat, encode_bcast_toNat]; omega
    · rw [dataField_toNat, encode_bcast_toNat]; omega
  | addr chip cmd data =>
    have h1 := cmd.isLt
    have h2 := data.isLt
    have h3 : chip < 4096 := of_decide_eq_true h
    have hchip : field (encode (.addr chip cmd data)) 16 12 = chip := by
      rw [field_eq, encode_addr_toNat]; omega
    have hcmd : cmdField (encode (.addr chip cmd data)) = cmd :=
      BitVec.eq_of_toNat_eq (by rw [cmdField_toNat, encode_addr_toNat]; omega)
    have hdata : dataField (encode (.addr chip cmd data)) = data :=
      BitVec.eq_of_toNat_eq (by rw [dataField_toNat, encode_addr_toNat]; omega)
    rw [withOperands, hchip, hcmd, hdata]
  | refrow row =>
    have hlt : row < 8 := of_decide_eq_true h
    refine congrArg Instr.refrow ?_
    rw [field_eq, encode_refrow_toNat]; omega
  | setbrt level =>
    have hlt : level < 256 := of_decide_eq_true h
    refine congrArg Instr.setbrt ?_
    rw [field_eq, encode_setbrt_toNat]; omega
  | fbrd index =>
    have hlt : index < 65536 := of_decide_eq_true h
    refine congrArg Instr.fbrd ?_
    rw [field_eq, encode_fbrd_toNat]; omega
  | clrall | shr | shl | refdisp | init => rfl

/-- The operands of a word with a row's OP and a zero reserved field make up the whole word: no bit of a command word
is outside OP, the reserved field and the operands (30_encoding.md R62). -/
theorem encode_withOperands {w : Word} {i : Instr} (hop : opField w = opField i.row.pattern)
    (hres : w &&& i.row.fmt.reservedMask = 0) : encode (i.withOperands w) = w := by
  have hw := w.isLt
  rw [opField, field_eq] at hop
  rw [and_reservedMask_eq_zero_iff, field_eq] at hres
  apply BitVec.eq_of_toNat_eq
  cases i with
  | setpix | clrpix | getpix =>
    simp only [opField, field_eq, Instr.row, Format.reserved, BitVec.toNat_ofNat, BitVec.ofNat_eq_ofNat] at hop hres
    simp only [Instr.withOperands, encode, encodeP_toNat, field_eq, BitVec.toNat_ofNat, BitVec.ofNat_eq_ofNat]
    omega
  | clrall | shr | shl | refdisp | init =>
    simp only [opField, field_eq, Instr.row, Format.reserved, BitVec.toNat_ofNat, BitVec.ofNat_eq_ofNat] at hop hres
    simp only [Instr.withOperands, encode, encodeZ_toNat, BitVec.toNat_ofNat, BitVec.ofNat_eq_ofNat]
    omega
  | bcast | addr | refrow | setbrt | fbrd =>
    simp only [opField, field_eq, Instr.row, Format.reserved, BitVec.toNat_ofNat, BitVec.ofNat_eq_ofNat] at hop hres
    simp only [Instr.withOperands, encode_bcast_toNat, encode_addr_toNat, encode_refrow_toNat, encode_setbrt_toNat,
      encode_fbrd_toNat, field_eq, cmdField_toNat, dataField_toNat]
    omega

/-- Every command's word has its row's OP and a zero reserved field (30_encoding.md R62). -/
theorem encode_inFormat (i : Instr) : Laws.EncodeInFormat.Statement i := by
  open Laws.EncodeInFormat in
  cases i with
  | setpix x y => exact setpix x y
  | clrpix x y => exact clrpix x y
  | getpix x y => exact getpix x y
  | clrall => exact clrall
  | shr => exact shr
  | shl => exact shl
  | bcast cmd data => exact bcast cmd data
  | addr chip cmd data => exact addr chip cmd data
  | refrow row => exact refrow row
  | refdisp => exact refdisp
  | setbrt level => exact setbrt level
  | init => exact init
  | fbrd index => exact fbrd index

/-- Settles O37: the word has the command's OP, a zero reserved field and the command's operands. -/
theorem decodeOfEncode : Obligations.DecodeOfEncode := by
  intro i hwf
  obtain ⟨hop, hres⟩ := encode_inFormat i
  exact decode_eq_ok_iff.mpr ⟨hop, hres, Instr.withOperands_encode hwf⟩

/-- Settles O38: the command is its row's with the word's operands, which fit their fields and make up the word. -/
theorem encodeOfDecode : Obligations.EncodeOfDecode := by
  intro w i hd
  obtain ⟨hop, hres, hops⟩ := decode_eq_ok_iff.mp hd
  rw [← hops]
  exact ⟨Instr.withOperands_wellFormed w i, encode_withOperands hop hres⟩

/-! ### The rows of the opcode table -/

/-- The opcode table lists the rows of the commands (30_encoding.md R65). -/
theorem mem_opcodeTable {r : OpcodeRow} : r ∈ opcodeTable ↔ ∃ i : Instr, i.row = r := by
  constructor
  · intro h
    obtain ⟨i, -, hi⟩ := List.mem_map.mp h
    exact ⟨i, hi⟩
  · rintro ⟨i, rfl⟩
    cases i <;> simp [opcodeTable, Instr.row]

/-- The bits of OP (30_encoding.md R61). -/
def opMask : Word := 0xF0000000

/-- Every row's mask is OP and its format's reserved bits, and outside OP its pattern is zero (30_encoding.md R65). -/
theorem opcodeTable_masks {r : OpcodeRow} (h : r ∈ opcodeTable) :
    r.mask = opMask ||| r.fmt.reservedMask ∧ r.pattern &&& r.mask = r.pattern ∧
      r.pattern &&& r.fmt.reservedMask = 0 := by
  have hall : ∀ r ∈ opcodeTable, r.mask = opMask ||| r.fmt.reservedMask ∧ r.pattern &&& r.mask = r.pattern ∧
      r.pattern &&& r.fmt.reservedMask = 0 := by decide
  exact hall r h

theorem xor_and (v w m : Word) : (v ^^^ w) &&& m = (v &&& m) ^^^ (w &&& m) := by
  ext j hj
  simp only [BitVec.getElem_and, BitVec.getElem_xor, Bool.and_xor_distrib_right]

/-- The bits of OP where two words differ are all zero exactly when the words have one OP. -/
theorem xor_and_opMask_eq_zero_iff (v w : Word) : (v ^^^ w) &&& opMask = 0 ↔ opField v = opField w := by
  have hzero : (v ^^^ w) &&& opMask = 0 ↔ field (v ^^^ w) 28 4 = 0 := and_mask_eq_zero_iff _ 28 4 (by decide)
  rw [hzero, field, BitVec.extractLsb'_xor, BitVec.toNat_xor, Nat.xor_eq_zero_iff]
  exact Iff.rfl

/-- A row fits a word exactly when the word has the row's OP and a zero reserved field (30_encoding.md R65). -/
theorem fits_iff {r : OpcodeRow} (hr : r ∈ opcodeTable) (w : Word) :
    r.fits w = true ↔ opField w = opField r.pattern ∧ w &&& r.fmt.reservedMask = 0 := by
  obtain ⟨hmask, hpattern, hreserved⟩ := opcodeTable_masks hr
  calc r.fits w = true ↔ w &&& r.mask = r.pattern := beq_iff_eq
    _ ↔ (w ^^^ r.pattern) &&& r.mask = 0 := by rw [xor_and, hpattern]; exact BitVec.xor_eq_zero_iff.symm
    _ ↔ (w ^^^ r.pattern) &&& opMask = 0 ∧ (w ^^^ r.pattern) &&& r.fmt.reservedMask = 0 := by
      rw [hmask, BitVec.and_or_distrib_left]; exact BitVec.or_eq_zero_iff
    _ ↔ opField w = opField r.pattern ∧ w &&& r.fmt.reservedMask = 0 := by
      rw [xor_and_opMask_eq_zero_iff, xor_and w, hreserved]; simp

/-- A row fits exactly the words of its commands (30_encoding.md R65). -/
theorem fits_iff_decode {r : OpcodeRow} (hr : r ∈ opcodeTable) (w : Word) :
    r.fits w = true ↔ ∃ i, decode w = .ok i ∧ i.row = r := by
  rw [fits_iff hr]
  constructor
  · rintro ⟨hop, hres⟩
    obtain ⟨i, rfl⟩ := mem_opcodeTable.mp hr
    exact ⟨_, decode_of_row hop hres, i.withOperands_row w⟩
  · rintro ⟨i, hd, rfl⟩
    obtain ⟨hop, hres, -⟩ := decode_eq_ok_iff.mp hd
    exact ⟨hop, hres⟩

/-- Settles O39: OP chooses the row, its reserved field decides, and the two rows that fit one word are the row of the
one command it decodes to. -/
theorem decodeFollowsTable : Obligations.DecodeFollowsTable := by
  intro w
  refine ⟨decode_of_reservedOp, fun r hr hop => ?_, fun r hr => fits_iff_decode hr w, fun r hr r' hr' h h' => ?_⟩
  · obtain ⟨i, rfl⟩ := mem_opcodeTable.mp hr
    exact ⟨decode_of_reservedField hop, fun hres => ⟨_, decode_of_row hop hres, i.withOperands_row w⟩⟩
  · obtain ⟨i, hd, rfl⟩ := (fits_iff_decode hr w).mp h
    obtain ⟨j, hd', rfl⟩ := (fits_iff_decode hr' w).mp h'
    rw [hd] at hd'
    cases hd'
    rfl

/-- Settles O40: the nine legal words are the words of their commands; the other three have a reserved OP or a non-zero
reserved field. -/
theorem sampleWordsDecode : Obligations.SampleWordsDecode :=
  ⟨decodeOfEncode (.setpix 8 0) rfl, decodeOfEncode (.clrpix 2 3) rfl, decodeOfEncode (.getpix 15 0) rfl,
    decodeOfEncode (.bcast 0x0A 0x05) rfl, decodeOfEncode (.addr 4095 0x0A 0x07) rfl, decodeOfEncode (.refrow 3) rfl,
    decodeOfEncode (.setbrt 255) rfl, decodeOfEncode (.fbrd 65535) rfl, decodeOfEncode (.setpix 0 15) rfl,
    decode_of_reservedOp (by decide), decode_of_reservedField (i := .clrall) (by decide) (by decide),
    decode_of_reservedField (i := .setpix 0 0) (by decide) (by decide)⟩

end Sys2Proof
end

section
/-! PROOF. The command port of 30_encoding.md and 70_reset_and_hazards.md: an illegal word is served as a no-op, and at
a block that is not ready the words wait. -/

namespace Sys2Proof.Machine

/-! ### Illegal words -/

/-- Each ground of illegality makes the word no command's (30_encoding.md R64). -/
theorem exists_decode_eq_error {w : Word}
    (h : opField w = 0 ∨ opField w = 14 ∨ opField w = 15 ∨
      ∃ r ∈ opcodeTable, opField w = opField r.pattern ∧ w &&& r.fmt.reservedMask ≠ 0) :
    ∃ e, decode w = .error e := by
  rcases h with h0 | h14 | h15 | ⟨r, hr, hop, hres⟩
  · exact ⟨_, decode_of_reservedOp (.inl h0)⟩
  · exact ⟨_, decode_of_reservedOp (.inr h14.ge)⟩
  · exact ⟨_, decode_of_reservedOp (.inr (by omega))⟩
  · obtain ⟨i, rfl⟩ := mem_opcodeTable.mp hr
    exact ⟨_, decode_of_reservedField hop hres⟩

/-- Settles O41: a ready block serves the word first, and a word that is no command changes nothing. -/
theorem illegalWordIsNoop : Obligations.IllegalWordIsNoop := by
  intro s w rest hhost hready hillegal
  obtain ⟨e, hd⟩ := exists_decode_eq_error hillegal
  calc step s = serve (.command w) (s.setHost rest) := step_of_ready hready hhost
    _ = .next (s.setHost rest) := runWord_of_illegal _ hd

/-! ### Words that wait -/

/-- Serving an event leaves the events still to come as they are. -/
theorem serve_host {e : HostEvent} {s t : State} (h : serve e s = .next t) : t.host = s.host := by
  cases e with
  | command w =>
    change runWord w s = .next t at h
    cases hd : decode w with
    | error _ => rw [runWord_of_illegal s hd] at h; cases h; rfl
    | ok i => rw [runWord_of_decode s hd, exec_eq] at h; cases h; simp
  | accept w =>
    change acceptWord w s = .next t at h
    cases hd : decode w with
    | error _ => rw [acceptWord_of_illegal s hd] at h; cases h; rfl
    | ok i => rw [acceptWord_eq_of_decode s hd] at h; cases h; rfl
  | proceed k => cases h; simp [State.proceed]
  | takeResponse => obtain ⟨-, rfl⟩ := takeResponse_eq_next h; rfl
  | reset presented => cases h; simp [State.applyReset_eq]

/-- A step of a block that is not ready accepts no word: every presented word still waits (30_encoding.md R60). -/
theorem step_keeps_words {s t : State} (hr : s.cmdReady = false) (h : step s = .next t) :
    t.host.filter HostEvent.isWord = s.host.filter HostEvent.isWord := by
  cases hn : nextEvent s.cmdReady s.host with
  | none => rw [step_eq_self hn] at h; cases h; rfl
  | some served =>
    obtain ⟨e, others⟩ := served
    obtain ⟨words, rest, hhost, rfl, -, hready⟩ := nextEvent_eq_some hn
    have hword : e.isWord = false := by
      rw [hr] at hready
      simpa using hready
    rw [step_eq_serve hn] at h
    rw [serve_host h, State.setHost_host, hhost]
    simp [hword]

/-- A block that is not ready, with nothing but words to come, waits (70_reset_and_hazards.md R219). -/
theorem step_of_words {s : State} (hr : s.cmdReady = false) (hw : ∀ e ∈ s.host, e.isWord = true) :
    step s = .next s :=
  step_eq_self (by rw [hr]; exact nextEvent_words hw)

/-- A run whose first step answers a state goes on from it. -/
theorem run_succ_of_step {M : Host.Core} {s t : M.State} (h : M.step s = .next t) (n : Nat) :
    M.run (n + 1) s = M.run n t := by
  simp only [Host.Core.run, h]

/-- A state whose step answers itself is never left. -/
theorem run_of_step_eq_self {s : State} (h : step s = .next s) (n : Nat) : core.run n s = .next s := by
  induction n with
  | zero => rfl
  | succ n ih => exact (run_succ_of_step (M := core) h n).trans ih

/-- Behind words that a block is not ready for, the next event of another port is served. -/
theorem step_behind_words {s : State} {words rest : List HostEvent} {e : HostEvent} (hr : s.cmdReady = false)
    (hw : ∀ w ∈ words, w.isWord = true) (he : e.isWord = false) (hhost : s.host = words ++ e :: rest) :
    step s = serve e (s.setHost (words ++ rest)) :=
  step_eq_serve (by rw [hr, hhost]; exact nextEvent_behind_words rest hw he)

/-- Taking an offered response withdraws the offer and does nothing else (30_encoding.md R60). -/
theorem takeResponse_of_rspValid {s : State} (h : s.rspValid = true) :
    takeResponse s = .next { s with rspValid := false } := by
  rw [takeResponse, if_pos h]

/-- Settles O51: an offered response keeps the port from being ready, and taking it is served behind waiting words. -/
theorem responseMustBeTaken : Obligations.ResponseMustBeTaken := by
  intro s hidle hoffered
  have hr : s.cmdReady = false := by simp [State.cmdReady, hoffered]
  refine ⟨hr, by simp [State.rspData, hoffered], fun t => step_keeps_words hr,
    fun hw => run_of_step_eq_self (step_of_words hr hw), fun words rest hw hhost => ?_⟩
  have hstep : step s = .next { s with rspValid := false, host := words ++ rest } := by
    rw [step_behind_words hr hw rfl hhost]
    exact takeResponse_of_rspValid hoffered
  exact ⟨_, hstep, rfl, (State.cmdReady_iff _).mpr ⟨hidle, rfl⟩⟩

end Sys2Proof.Machine
end

section
/-! PROOF. The assembler of 30_encoding.md section 4: which operands it accepts, what the pseudo-instructions stand for,
and what `putcol` draws. -/

namespace Sys2Proof.Machine

/-! ### Operands and expansions -/

/-- The assembler's check, as the condition on the operands that it decides (30_encoding.md R67). -/
theorem operandCheck_eq {fits : Prop} [Decidable fits] (ok : Bool) (i : Instr) (h : ok = true ↔ fits) :
    (if ok then .ok i else .error AsmError.operandTooLarge : Except AsmError Instr) =
      if fits then .ok i else .error .operandTooLarge := by
  simp only [h]

/-- Settles O44: each mnemonic selects its command, whose operands are compared with the largest values of their
fields. -/
theorem assemblerChecksOperands : Obligations.AssemblerChecksOperands :=
  ⟨fun x y => operandCheck_eq (x ≤ 65535 && y ≤ 15) _ (by simp),
    fun x y => operandCheck_eq (x ≤ 65535 && y ≤ 15) _ (by simp),
    fun x y => operandCheck_eq (x ≤ 65535 && y ≤ 15) _ (by simp),
    fun c d => operandCheck_eq (c ≤ 255 && d ≤ 255) _ (by simp),
    fun k c d => operandCheck_eq (k ≤ 4095 && c ≤ 255 && d ≤ 255) _ (by simp [and_assoc]),
    fun r => operandCheck_eq (r ≤ 7) _ (by simp),
    fun l => operandCheck_eq (l ≤ 255) _ (by simp),
    fun i => operandCheck_eq (i ≤ 65535) _ (by simp)⟩

/-- Settles O42: the table of 30_encoding.md R68, row by row. -/
theorem pseudoInstructionsExpand : Obligations.PseudoInstructionsExpand :=
  fun _ _ _ _ => ⟨rfl, rfl, rfl, rfl, rfl, rfl, rfl⟩

/-! ### One pixel -/

theorem one_shiftLeft_getLsbD (j : Nat) {k : Nat} (hk : k < 8) : (1#8 <<< j).getLsbD k = decide (k = j) := by
  rw [← BitVec.twoPow_eq, BitVec.getLsbD_twoPow, ← Bool.decide_and, decide_eq_decide]
  omega

/-- Setting a bit sets it and no other (40_framebuffer.md R80). -/
theorem setBit_getLsbD (b : Byte) (j : Nat) {k : Nat} (hk : k < 8) :
    (setBit b j).getLsbD k = if k = j then true else b.getLsbD k := by
  rw [setBit, BitVec.getLsbD_or, one_shiftLeft_getLsbD j hk]
  split <;> simp_all

/-- Clearing a bit clears it and no other (40_framebuffer.md R80). -/
theorem clearBit_getLsbD (b : Byte) (j : Nat) {k : Nat} (hk : k < 8) :
    (clearBit b j).getLsbD k = if k = j then false else b.getLsbD k := by
  rw [clearBit, BitVec.getLsbD_and, BitVec.getLsbD_not, one_shiftLeft_getLsbD j hk]
  split <;> simp_all

/-- Two pixels of the grid's columns that share byte and bit are one pixel (20_memory.md R44). -/
theorem pixel_of_address {n x x' y y' : Nat} (hx : x < 8 * n) (hx' : x' < 8 * n)
    (hidx : idx n x' y' = idx n x y) (hbit : bitOf x' = bitOf x) : x' = x ∧ y' = y := by
  constructor
  · rw [← column_eq x', ← column_eq x, hbit, ← idx_mod y' hx', ← idx_mod y hx, hidx]
  · rw [← idx_div y' hx', ← idx_div y hx, hidx]

/-- A byte written with one pixel's bit at a new value changes that pixel and no other (10_state.md R22). -/
theorem State.pixel_setFb_write {s : State} {x y : Nat} {b : Byte} {v : Bool} (hx : x < 8 * s.n)
    (hb : ∀ k < 8, b.getLsbD k = if k = bitOf x then v else (s.fb.read (idx s.n x y)).getLsbD k)
    {x' : Nat} (y' : Nat) (hx' : x' < 8 * s.n) :
    (s.setFb (s.fb.write (idx s.n x y) b)).pixel x' y' = if x' = x ∧ y' = y then v else s.pixel x' y' := by
  simp only [State.pixel, State.n_eq, State.setFb_cfg, State.setFb_fb, Memory.read_write]
  by_cases hidx : idx s.n x' y' = idx s.n x y
  · rw [if_pos hidx, hb _ (bitOf_lt x')]
    by_cases hbit : bitOf x' = bitOf x
    · rw [if_pos hbit, if_pos (pixel_of_address hx hx' hidx hbit)]
    · rw [if_neg hbit, if_neg (fun h => hbit (by rw [h.1])), hidx]
  · rw [if_neg hidx, if_neg (fun h => hidx (by rw [h.1, h.2]))]

theorem exec_setpix_of_valid {s : State} {x y : Nat} (h : validPixel s.cfg x y = true) :
    exec (.setpix x y) s =
      .next (s.setFb (s.fb.write (idx s.n x y) (setBit (s.fb.read (idx s.n x y)) (bitOf x)))) :=
  congrArg Host.Outcome.next (if_pos h)

theorem exec_clrpix_of_valid {s : State} {x y : Nat} (h : validPixel s.cfg x y = true) :
    exec (.clrpix x y) s =
      .next (s.setFb (s.fb.write (idx s.n x y) (clearBit (s.fb.read (idx s.n x y)) (bitOf x)))) :=
  congrArg Host.Outcome.next (if_pos h)

/-- `putpix` at a valid coordinate gives its pixel the value and keeps every other (30_encoding.md R68). -/
theorem exec_putpix {s : State} {x y : Nat} (v : Bool) (h : validPixel s.cfg x y = true) :
    ∃ t, exec (putpix x y v) s = .next t ∧ t.cfg = s.cfg ∧
      ∀ x' y', x' < 8 * s.n → t.pixel x' y' = if x' = x ∧ y' = y then v else s.pixel x' y' := by
  have hx : x < 8 * s.n := lt_of_xok (validPixel_iff.mp h).1
  cases v with
  | true =>
    exact ⟨_, exec_setpix_of_valid h, rfl, fun _ y' =>
      State.pixel_setFb_write hx (fun k hk => setBit_getLsbD _ _ hk) y'⟩
  | false =>
    exact ⟨_, exec_clrpix_of_valid h, rfl, fun _ y' =>
      State.pixel_setFb_write hx (fun k hk => clearBit_getLsbD _ _ hk) y'⟩

/-! ### One column -/

theorem execAll_cons {i : Instr} {s t : State} (is : List Instr) (h : exec i s = .next t) :
    execAll (i :: is) s = execAll is t := by
  simp only [execAll, h]

/-- `putpix` at the rows of a list, all of one accepted column, gives those pixels their values and keeps every
other. -/
theorem execAll_putpix_rows {s : State} {x : Nat} (f : Nat → Bool) (rows : List Nat) (hx : xok s.cfg x = true)
    (hrows : ∀ r ∈ rows, r < 8) :
    ∃ t, execAll (rows.map fun r => putpix x r (f r)) s = .next t ∧
      ∀ x' y', x' < 8 * s.n → t.pixel x' y' = if x' = x ∧ y' ∈ rows then f y' else s.pixel x' y' := by
  induction rows generalizing s with
  | nil => exact ⟨s, rfl, by simp⟩
  | cons r rows ih =>
    have hvalid : validPixel s.cfg x r = true :=
      validPixel_iff.mpr ⟨hx, Nat.le_of_lt_succ (hrows r List.mem_cons_self)⟩
    obtain ⟨u, hexec, hcfg, hpixel⟩ := exec_putpix (f r) hvalid
    obtain ⟨t, hall, hpixels⟩ := ih (s := u) (by rw [hcfg, hx]) fun r' hr' => hrows r' (List.mem_cons_of_mem _ hr')
    refine ⟨t, (execAll_cons _ hexec).trans hall, fun x' y' hx' => ?_⟩
    rw [hpixels x' y' (by rwa [State.n_eq, hcfg]), hpixel x' y' hx']
    by_cases hlater : x' = x ∧ y' ∈ rows
    · simp [hlater]
    · by_cases hnow : x' = x ∧ y' = r
      · obtain ⟨rfl, rfl⟩ := hnow
        simp
      · simp only [List.mem_cons, and_or_left, hlater, hnow, if_false, or_self]

/-- Settles O43: `putcol` is `putpix` at rows 0 to 7 of its column, with the bits of its byte. -/
theorem putcolDrawsColumn : Obligations.PutcolDrawsColumn := by
  intro s x b hx
  obtain ⟨t, hall, hpixels⟩ := execAll_putpix_rows b.getLsbD (List.range 8) hx fun r hr => List.mem_range.mp hr
  refine ⟨t, hall, fun r hr => ?_, fun x' r hx' _ hne => ?_⟩
  · rw [hpixels x r (lt_of_xok hx), if_pos ⟨rfl, List.mem_range.mpr hr⟩]
  · rw [hpixels x' r hx', if_neg fun h => hne h.1]

end Sys2Proof.Machine
end

section
/-! PROOF. The framebuffer commands of 40_framebuffer.md: the effect of each, and the laws of the family (locality,
idempotence, commutation, the columns that LEGACY leaves out). -/

namespace Sys2Proof.Machine

/-! ### The words of the commands -/

/-- The number of a well-formed command's word decodes to the command (30_encoding.md R62). -/
theorem decode_ofNat_of_encode {i : Instr} {w : Nat} (hwf : i.wellFormed = true) (hw : (encode i).toNat = w) :
    decode (BitVec.ofNat 32 w) = .ok i := by
  rw [← hw, BitVec.ofNat_toNat, BitVec.setWidth_eq]
  exact decodeOfEncode i hwf

theorem coordinates_fit {x y : Nat} (hx : x < 65536) (hy : y < 16) :
    (decide (x < 65536) && decide (y < 16)) = true :=
  Bool.and_eq_true_iff.mpr ⟨decide_eq_true hx, decide_eq_true hy⟩

/-- The number of a format P word whose coordinate fits its fields (30_encoding.md R62). -/
theorem encodeP_toNat_of_lt (op : BitVec 4) {x y : Nat} (hx : x < 65536) (hy : y < 16) :
    (encodeP op x y).toNat = op.toNat * 2 ^ 28 + 65536 * y + x := by
  rw [encodeP_toNat]
  omega

/-! ### The framebuffer after one pixel write -/

/-- The state after `putpix x y v`, that is, after SETPIX or CLRPIX (30_encoding.md R68). -/
def State.putPixel (s : State) (x y : Nat) (v : Bool) : State := s.setFb (fbAfter s (putpix x y v))

theorem exec_putpix_eq (s : State) (x y : Nat) (v : Bool) : exec (putpix x y v) s = .next (s.putPixel x y v) := by
  cases v <;> exact exec_eq _ s

@[simp] theorem State.putPixel_cfg (s : State) (x y : Nat) (v : Bool) : (s.putPixel x y v).cfg = s.cfg := rfl

/-- A write at an invalid coordinate is ignored (40_framebuffer.md R81, R82). -/
theorem State.putPixel_of_invalid {s : State} {x y : Nat} (v : Bool) (h : validPixel s.cfg x y = false) :
    s.putPixel x y v = s := by
  cases v <;> simp [State.putPixel, putpix, fbAfter, h, State.setFb_eq]

/-- Every bit of the framebuffer after a pixel write: the addressed one has the new value if the coordinate is valid,
and every other keeps its own (40_framebuffer.md R81, R82, R86). -/
theorem State.putPixel_bit (s : State) (x y : Nat) (v : Bool) (i : Nat) {k : Nat} (hk : k < 8) :
    ((s.putPixel x y v).fb.read i).getLsbD k =
      if validPixel s.cfg x y = true ∧ i = idx s.cfg.n x y ∧ k = bitOf x then v else (s.fb.read i).getLsbD k := by
  cases hvalid : validPixel s.cfg x y with
  | false => rw [State.putPixel_of_invalid v hvalid, if_neg (by simp)]
  | true =>
    by_cases hi : i = idx s.cfg.n x y
    · subst hi
      cases v <;> simp [State.putPixel, putpix, fbAfter, hvalid, Memory.read_write, setBit_getLsbD _ _ hk,
        clearBit_getLsbD _ _ hk]
    · cases v <;> simp [State.putPixel, putpix, fbAfter, hvalid, Memory.read_write, hi]

theorem State.putPixel_bit_of_valid {s : State} {x y : Nat} (v : Bool) (h : validPixel s.cfg x y = true) (i : Nat)
    {k : Nat} (hk : k < 8) :
    ((s.putPixel x y v).fb.read i).getLsbD k =
      if i = idx s.cfg.n x y ∧ k = bitOf x then v else (s.fb.read i).getLsbD k := by
  simp only [State.putPixel_bit s x y v i hk, h, true_and]

theorem State.putPixel_bit_of_ne {s : State} {x y i k : Nat} (v : Bool) (hk : k < 8)
    (h : i ≠ idx s.cfg.n x y ∨ k ≠ bitOf x) :
    ((s.putPixel x y v).fb.read i).getLsbD k = (s.fb.read i).getLsbD k := by
  rw [State.putPixel_bit s x y v i hk, if_neg]
  rintro ⟨-, rfl, rfl⟩
  simp at h

/-- The pixel of a valid coordinate takes the written value, every other pixel keeps its own. -/
theorem State.pixel_putPixel {s : State} {x y : Nat} (v : Bool) (h : validPixel s.cfg x y = true) {x' : Nat} (y' : Nat)
    (hx' : x' < 8 * s.cfg.n) :
    (s.putPixel x y v).pixel x' y' = if x' = x ∧ y' = y then v else s.pixel x' y' := by
  obtain ⟨t, hexec, -, hpixel⟩ := exec_putpix v h
  rw [exec_putpix_eq] at hexec
  cases hexec
  exact hpixel x' y' hx'

theorem State.pixel_putPixel_self {s : State} {x y : Nat} (v : Bool) (h : validPixel s.cfg x y = true) :
    (s.putPixel x y v).pixel x y = v := by
  rw [State.pixel_putPixel v h y (lt_of_xok (validPixel_iff.mp h).1), if_pos ⟨rfl, rfl⟩]

/-! ### The effect of each command -/

theorem exec_getpix (s : State) (x y : Nat) :
    exec (.getpix x y) s =
      .next { s with rsp := some (if validPixel s.cfg x y then zextBit (s.pixel x y) else 0x00) } := rfl

theorem exec_fbrd (s : State) (i : Nat) :
    exec (.fbrd i) s = .next { s with rsp := some (if i < 8 * s.n then s.fb.read i else 0x00) } := rfl

theorem exec_clrall (s : State) : exec .clrall s = .next (s.setFb (Memory.ofFn s.cfg.fbBytes fun _ => 0x00)) := rfl

theorem exec_shr (s : State) : exec .shr s = .next (s.setFb (Memory.ofFn s.cfg.fbBytes (shrByte s.n s.fb))) := rfl

/-- Settles O1: the write of the value 1, bit by bit. -/
theorem setpixEffect : Obligations.SetpixEffect := by
  refine ⟨fun x y hx hy => ?_, fun s x y => ?_⟩
  · exact decode_ofNat_of_encode (i := .setpix x y) (coordinates_fit hx hy) (encodeP_toNat_of_lt 1 hx hy)
  · exact ⟨_, exec_putpix_eq s x y true, rfl, State.putPixel_of_invalid true,
      fun h i k hk => State.putPixel_bit_of_valid true h i hk⟩

/-- Settles O2: the write of the value 0, bit by bit. -/
theorem clrpixEffect : Obligations.ClrpixEffect := by
  refine ⟨fun x y hx hy => ?_, fun s x y => ?_⟩
  · exact decode_ofNat_of_encode (i := .clrpix x y) (coordinates_fit hx hy) (encodeP_toNat_of_lt 2 hx hy)
  · exact ⟨_, exec_putpix_eq s x y false, rfl, State.putPixel_of_invalid false,
      fun h i k hk => State.putPixel_bit_of_valid false h i hk⟩

/-- Settles O3: the pixel is the bit that the statement names, and a lit one is the byte 0x01. -/
theorem getpixEffect : Obligations.GetpixEffect := by
  refine ⟨fun x y hx hy => ?_, fun s x y => ?_⟩
  · exact decode_ofNat_of_encode (i := .getpix x y) (coordinates_fit hx hy) (encodeP_toNat_of_lt 3 hx hy)
  · have hpixel : (s.fb.read (x / 8 + s.n * y)).getLsbD (7 - x % 8) = s.pixel x y := rfl
    rw [exec_getpix, hpixel, zextBit, ite_and]

/-- Settles O4: the parallel update with the byte 0x00 everywhere. -/
theorem clrallEffect : Obligations.ClrallEffect :=
  ⟨decodeOfEncode .clrall rfl, fun s =>
    ⟨_, exec_clrall s, rfl, fun _ hi => (Memory.read_ofFn _ _ _).trans (if_pos hi)⟩⟩

/-- Settles O5: the word is FBRD's own, and the response is the byte read. -/
theorem fbrdEffect : Obligations.FbrdEffect := by
  refine ⟨fun i hi => ?_, exec_fbrd⟩
  refine decode_ofNat_of_encode (i := .fbrd i) (decide_eq_true hi) ?_
  rw [encode_fbrd_toNat]
  omega

/-! ### Locality -/

/-- Of two writes at one coordinate the later one alone counts (40_framebuffer.md R87). -/
theorem State.putPixel_putPixel_read (s : State) (x y : Nat) (w v : Bool) (i : Nat) :
    ((s.putPixel x y w).putPixel x y v).fb.read i = (s.putPixel x y v).fb.read i := by
  refine BitVec.eq_of_getLsbD_eq fun k hk => ?_
  simp only [State.putPixel_bit _ x y _ i hk, State.putPixel_cfg]
  split <;> rfl

/-- Writing the value that the pixel has changes nothing (40_framebuffer.md R82). -/
theorem State.putPixel_read_of_pixel (s : State) (x y i : Nat) :
    (s.putPixel x y (s.pixel x y)).fb.read i = s.fb.read i := by
  refine BitVec.eq_of_getLsbD_eq fun k hk => ?_
  rw [State.putPixel_bit s x y _ i hk]
  split
  · next h =>
    obtain ⟨-, rfl, rfl⟩ := h
    rfl
  · rfl

/-- States of one configuration with the same bytes show the same pixels (10_state.md R22). -/
theorem State.pixel_congr {s t : State} (hcfg : t.cfg = s.cfg) (hread : ∀ i, t.fb.read i = s.fb.read i) (x y : Nat) :
    t.pixel x y = s.pixel x y := by
  simp only [State.pixel, State.n_eq, hcfg, hread]

/-- Settles O6: the bits after each write. SETPIX then CLRPIX is CLRPIX alone, which gives back the framebuffer exactly
when the pixel was blank. -/
theorem pixelWriteLocality : Obligations.PixelWriteLocality := by
  refine ⟨fun s x y => ?_, fun s x y hvalid => ?_⟩
  · exact ⟨_, _, exec_putpix_eq s x y true, exec_putpix_eq s x y false, fun i k hk hne =>
      ⟨State.putPixel_bit_of_ne true hk hne, State.putPixel_bit_of_ne false hk hne⟩⟩
  · have hclr : ∀ i, ((s.putPixel x y true).putPixel x y false).fb.read i = (s.putPixel x y false).fb.read i :=
      State.putPixel_putPixel_read s x y true false
    have hpixel : ∀ x' y',
        ((s.putPixel x y true).putPixel x y false).pixel x' y' = (s.putPixel x y false).pixel x' y' :=
      State.pixel_congr rfl hclr
    have hblank : (s.putPixel x y false).pixel x y = false := State.pixel_putPixel_self false hvalid
    refine ⟨_, _, _, exec_putpix_eq s x y true, exec_putpix_eq s x y false, exec_putpix_eq _ x y false,
      State.pixel_putPixel_self true hvalid, hblank, (hpixel x y).trans hblank,
      fun x' y' hx' _ hne => ?_, fun hrestored => ?_, fun hbefore i => ?_⟩
    · rw [hpixel, State.pixel_putPixel false hvalid y' hx', if_neg (by omega)]
    · rw [← State.pixel_congr (by rfl) hrestored, hpixel, hblank]
    · rw [hclr, ← hbefore, State.putPixel_read_of_pixel]

/-! ### Idempotence, commutation and clearing -/

/-- Writes at different coordinates commute: two valid coordinates never share a bit (40_framebuffer.md R87). -/
theorem State.putPixel_comm_read (s : State) {x y x' y' : Nat} (v v' : Bool) (hne : x ≠ x' ∨ y ≠ y') (i : Nat) :
    ((s.putPixel x y v).putPixel x' y' v').fb.read i = ((s.putPixel x' y' v').putPixel x y v).fb.read i := by
  refine BitVec.eq_of_getLsbD_eq fun k hk => ?_
  simp only [State.putPixel_bit _ _ _ _ i hk, State.putPixel_cfg]
  by_cases h : validPixel s.cfg x y = true ∧ i = idx s.cfg.n x y ∧ k = bitOf x
  · have h' : ¬ (validPixel s.cfg x' y' = true ∧ i = idx s.cfg.n x' y' ∧ k = bitOf x') := by
      rintro ⟨hvalid', hidx', hbit'⟩
      obtain ⟨hvalid, hidx, hbit⟩ := h
      obtain ⟨rfl, rfl⟩ := pixel_of_address (lt_of_xok (validPixel_iff.mp hvalid).1)
        (lt_of_xok (validPixel_iff.mp hvalid').1) (hidx'.symm.trans hidx) (hbit'.symm.trans hbit)
      simp at hne
    rw [if_neg h', if_pos h, if_pos h]
  · simp only [if_neg h]

/-- A list of pixel writes followed by other commands runs those from a state of the same configuration. -/
theorem execAll_putpix_append (s : State) (writes : List (Nat × Nat × Bool)) (is : List Instr) :
    ∃ t, execAll (writes.map (fun p => putpix p.1 p.2.1 p.2.2) ++ is) s = execAll is t ∧ t.cfg = s.cfg := by
  induction writes generalizing s with
  | nil => exact ⟨s, rfl, rfl⟩
  | cons p writes ih =>
    obtain ⟨t, hexec, hcfg⟩ := ih (s.putPixel p.1 p.2.1 p.2.2)
    exact ⟨t, (execAll_cons _ (exec_putpix_eq s p.1 p.2.1 p.2.2)).trans hexec, hcfg⟩

theorem execAll_pair {i j : Instr} {s t u : State} (hi : exec i s = .next t) (hj : exec j t = .next u) :
    execAll [i, j] s = .next u :=
  (execAll_cons _ hi).trans (execAll_cons _ hj)

/-- Settles O7: the later of two writes at one coordinate counts, writes at two coordinates touch two bits, and CLRALL
takes no account of what it finds. -/
theorem pixelWritesIdempotentAndCommute : Obligations.PixelWritesIdempotentAndCommute := by
  refine ⟨fun s x y v => ?_, fun s x y x' y' v v' hne => ?_, fun s x y v hvalid => ?_, fun s writes => ?_⟩
  · exact ⟨_, _, exec_putpix_eq s x y v, exec_putpix_eq _ x y v, State.putPixel_putPixel_read s x y v v⟩
  · exact ⟨_, _, execAll_pair (exec_putpix_eq s x y v) (exec_putpix_eq _ x' y' v'),
      execAll_pair (exec_putpix_eq s x' y' v') (exec_putpix_eq _ x y v), State.putPixel_comm_read s v v' hne⟩
  · exact ⟨_, execAll_pair (exec_putpix_eq s x y (!v)) (exec_putpix_eq _ x y v),
      State.pixel_putPixel_self (s := s.putPixel x y (!v)) v hvalid⟩
  · obtain ⟨t, hwrites, hcfg⟩ := execAll_putpix_append s writes [.clrall]
    refine ⟨_, hwrites.trans (execAll_cons [] (exec_clrall t)), fun i hi => ?_⟩
    rw [State.setFb_fb, Memory.read_ofFn, hcfg, if_pos hi]

/-! ### The columns that LEGACY leaves out -/

@[simp] theorem zextBit_getElem_zero (b : Bool) : (zextBit b)[0] = b := by cases b <;> rfl

/-- Every bit of a byte after SHR: the next higher one, or at the top the bit carried over inside the row
(41_shifter.md R111). -/
theorem shrByte_getLsbD (n : Nat) (fb : Memory) (i : Nat) {k : Nat} (hk : k < 8) :
    (shrByte n fb i).getLsbD k =
      if k = 7 then decide (i % n ≠ 0) && (fb.read (i - 1)).getLsbD 0 else (fb.read i).getLsbD (k + 1) := by
  rw [shrByte, BitVec.getLsbD_or, BitVec.getLsbD_ushiftRight, BitVec.getLsbD_shiftLeft, Nat.add_comm 1 k]
  by_cases htop : k = 7
  · subst htop
    by_cases hfirst : i % n = 0 <;> simp [hfirst]
  · have hlow : k < 7 := by omega
    simp [htop, hlow]

/-- SHR moves every pixel one column right (41_shifter.md R113). -/
theorem State.pixel_shr_succ (s : State) {x y : Nat} (hx : x + 1 < 8 * s.cfg.n) (hy : y < 8) :
    (s.setFb (Memory.ofFn s.cfg.fbBytes (shrByte s.n s.fb))).pixel (x + 1) y = s.pixel x y := by
  simp only [State.pixel, State.n_eq, State.setFb_cfg, State.setFb_fb, Memory.read_ofFn, Config.fbBytes_eq]
  rw [if_pos (idx_lt s.cfg.n_pos hx hy), shrByte_getLsbD _ _ _ (bitOf_lt _)]
  by_cases hfirst : (x + 1) % 8 = 0
  · have hbit : bitOf (x + 1) = 7 := by unfold bitOf; omega
    have hlast : bitOf x = 0 := by unfold bitOf; omega
    have hchip : chipIndex (x + 1) = chipIndex x + 1 := by unfold chipIndex; omega
    have hidx : idx s.cfg.n (x + 1) y - 1 = idx s.cfg.n x y := by unfold idx; omega
    rw [if_pos hbit, hidx, hlast, idx_mod y hx, hchip]
    simp
  · have hbit : bitOf (x + 1) + 1 = bitOf x := by unfold bitOf; omega
    have hidx : idx s.cfg.n (x + 1) y = idx s.cfg.n x y := by unfold idx chipIndex; omega
    rw [if_neg (by have := bitOf_lt x; omega), hbit, hidx]

/-- Settles O8: the column is not valid, its byte lies in the framebuffer, and SHR moves the pixel of the last valid
column into the first one left out. -/
theorem legacyColumnsUnreachable : Obligations.LegacyColumnsUnreachable := by
  intro s x y hlegacy hn hlow hx hy
  have hinvalid : validPixel s.cfg x y = false :=
    (validPixel_eq_false_iff_of_legacy hlegacy hx (Nat.le_of_lt_succ hy)).mpr ⟨hlow, Nat.le_sub_one_of_lt hx⟩
  have hvalid : validPixel s.cfg (7 * s.n) y = true :=
    (validPixel_iff_of_legacy hlegacy).mpr ⟨le_rfl, Nat.le_of_lt_succ hy⟩
  have hnext : 7 * s.cfg.n + 1 < 8 * s.cfg.n := by
    rw [State.n_eq] at hn
    omega
  have hbyte : x / 8 + s.n * y < 8 * s.n := idx_lt s.cfg.n_pos hx hy
  refine ⟨?_, ?_, ?_, ?_, _, execAll_pair (exec_putpix_eq s (7 * s.n) y true) (exec_shr _), ?_⟩
  · exact (exec_putpix_eq s x y true).trans (congrArg _ (State.putPixel_of_invalid true hinvalid))
  · exact (exec_putpix_eq s x y false).trans (congrArg _ (State.putPixel_of_invalid false hinvalid))
  · rw [exec_getpix, hinvalid]
    rfl
  · rw [exec_fbrd, if_pos hbyte]
  · exact (State.pixel_shr_succ (s.putPixel (7 * s.n) y true) hnext hy).trans (State.pixel_putPixel_self true hvalid)

end Sys2Proof.Machine
end

section
/-! PROOF. The shifter commands of 41_shifter.md: the bytes of each, the source's in-place loops, and the shifts in
pixel terms. -/

namespace Sys2Proof.Machine

/-! ### The bytes after a shift -/

theorem ite_and_eq_zextBit (p : Prop) [Decidable p] (b : Bool) :
    (if p ∧ b = true then 0x01#8 else 0x00#8) = if p then zextBit b else 0x00 := ite_and ..

/-- SHR's byte with its carry as one condition (41_shifter.md R111). -/
theorem shrByte_eq (n : Nat) (m : Memory) (i : Nat) :
    shrByte n m i = (m.read i >>> 1) |||
      ((if i % n ≠ 0 ∧ (m.read (i - 1)).getLsbD 0 = true then 0x01#8 else 0x00#8) <<< 7) := by
  rw [ite_and_eq_zextBit]
  rfl

/-- SHR's byte as the source's loop writes it, the carry already in bit 7 (41_shifter.md R111). -/
theorem shrByte_eq_topBit (n : Nat) (m : Memory) (i : Nat) :
    shrByte n m i = (m.read i >>> 1) |||
      (if i % n ≠ 0 ∧ (m.read (i - 1)).getLsbD 0 = true then 0x80#8 else 0x00#8) := by
  rw [shrByte_eq]
  split <;> rfl

/-- SHL's byte with its carry as one condition (41_shifter.md R112). -/
theorem shlByte_eq (n : Nat) (m : Memory) (i : Nat) :
    shlByte n m i = (m.read i <<< 1) |||
      (if (i + 1) % n ≠ 0 ∧ (m.read (i + 1)).getLsbD 7 = true then 0x01#8 else 0x00#8) := by
  rw [ite_and_eq_zextBit]
  rfl

theorem zextBit_getLsbD (b : Bool) (k : Nat) : (zextBit b).getLsbD k = (decide (k = 0) && b) := by
  cases b <;> simp [zextBit, BitVec.getLsbD_one]

/-- Every bit of a byte after SHL: the next lower one, or at the bottom the bit carried over inside the row
(41_shifter.md R112). -/
theorem shlByte_getLsbD (n : Nat) (fb : Memory) (i : Nat) {k : Nat} (hk : k < 8) :
    (shlByte n fb i).getLsbD k =
      if k = 0 then decide ((i + 1) % n ≠ 0) && (fb.read (i + 1)).getLsbD 7 else (fb.read i).getLsbD (k - 1) := by
  rw [shlByte, BitVec.getLsbD_or, BitVec.getLsbD_shiftLeft, apply_ite (BitVec.getLsbD · k), zextBit_getLsbD]
  by_cases hbottom : k = 0
  · by_cases hlast : (i + 1) % n = 0 <;> simp [hbottom, hlast]
  · simp [hbottom, hk]

/-! ### The state after a shift -/

/-- The state after SHR (41_shifter.md R111). -/
def State.shiftRight (s : State) : State := s.setFb (fbAfter s .shr)

/-- The state after SHL (41_shifter.md R112). -/
def State.shiftLeft (s : State) : State := s.setFb (fbAfter s .shl)

theorem exec_shr_eq (s : State) : exec .shr s = .next s.shiftRight := exec_eq .shr s

theorem exec_shl_eq (s : State) : exec .shl s = .next s.shiftLeft := exec_eq .shl s

@[simp] theorem State.shiftRight_cfg (s : State) : s.shiftRight.cfg = s.cfg := rfl
@[simp] theorem State.shiftLeft_cfg (s : State) : s.shiftLeft.cfg = s.cfg := rfl

theorem State.shiftRight_read (s : State) {i : Nat} (hi : i < 8 * s.cfg.n) :
    s.shiftRight.fb.read i = shrByte s.cfg.n s.fb i :=
  (Memory.read_ofFn _ _ i).trans (if_pos hi)

theorem State.shiftLeft_read (s : State) {i : Nat} (hi : i < 8 * s.cfg.n) :
    s.shiftLeft.fb.read i = shlByte s.cfg.n s.fb i :=
  (Memory.read_ofFn _ _ i).trans (if_pos hi)

/-- Settles O11: the word is SHR's own, and the bytes are those of the parallel update. -/
theorem shrEffect : Obligations.ShrEffect :=
  ⟨decodeOfEncode .shr rfl, fun s =>
    ⟨_, exec_shr_eq s, rfl, fun i hi => (s.shiftRight_read hi).trans (shrByte_eq s.n s.fb i)⟩⟩

/-- Settles O12: the word is SHL's own, and the bytes are those of the parallel update. -/
theorem shlEffect : Obligations.ShlEffect :=
  ⟨decodeOfEncode .shl rfl, fun s =>
    ⟨_, exec_shl_eq s, rfl, fun i hi => (s.shiftLeft_read hi).trans (shlByte_eq s.n s.fb i)⟩⟩

/-! ### The source's in-place loops -/

/-- A loop that updates bytes in place gives what the parallel update gives, when a write at an index never changes
what a later index gets. -/
theorem Memory.read_foldl_write {f : Memory → Nat → Byte} {order : List Nat}
    (h : order.Pairwise fun a b => ∀ (m : Memory) (v : Byte), f (m.write a v) b = f m b) (m : Memory) (i : Nat) :
    (order.foldl (fun m b => m.write b (f m b)) m).read i = if i ∈ order then f m i else m.read i := by
  induction order generalizing m with
  | nil => simp
  | cons b order ih =>
    obtain ⟨hfirst, hrest⟩ := List.pairwise_cons.mp h
    rw [List.foldl_cons, ih hrest, Memory.read_write]
    by_cases hlater : i ∈ order
    · rw [if_pos hlater, if_pos (List.mem_cons_of_mem _ hlater), hfirst i hlater]
    · rw [if_neg hlater]
      by_cases hnow : i = b
      · subst hnow
        rw [if_pos rfl, if_pos List.mem_cons_self]
      · rw [if_neg hnow, if_neg (by simp [hnow, hlater])]

/-- SHR's byte does not read the indices above its own. -/
theorem shrByte_write_of_lt (n : Nat) {a b : Nat} (h : b < a) (m : Memory) (v : Byte) :
    shrByte n (m.write a v) b = shrByte n m b := by
  have hown : b ≠ a := by omega
  have hprevious : b - 1 ≠ a := by omega
  simp only [shrByte, Memory.read_write, if_neg hown, if_neg hprevious]

/-- SHL's byte does not read the indices below its own. -/
theorem shlByte_write_of_lt (n : Nat) {a b : Nat} (h : a < b) (m : Memory) (v : Byte) :
    shlByte n (m.write a v) b = shlByte n m b := by
  have hown : b ≠ a := by omega
  have hnext : b + 1 ≠ a := by omega
  simp only [shlByte, Memory.read_write, if_neg hown, if_neg hnext]

/-- Settles O13: each loop writes an index only after every index whose byte depends on it. -/
theorem shiftLoopsMatchParallelUpdate : Obligations.ShiftLoopsMatchParallelUpdate := by
  intro s
  simp only [← shrByte_eq_topBit, ← shlByte_eq]
  refine ⟨⟨_, exec_shr_eq s, fun i hi => ?_⟩, ⟨_, exec_shl_eq s, fun i hi => ?_⟩⟩
  · have hdescending := List.pairwise_reverse.mpr (List.pairwise_lt_range (n := 8 * s.n))
    rw [Memory.read_foldl_write (hdescending.imp (shrByte_write_of_lt s.n)),
      if_pos (List.mem_reverse.mpr (List.mem_range.mpr hi))]
    exact s.shiftRight_read hi
  · have hascending := List.pairwise_lt_range (n := 8 * s.n)
    rw [Memory.read_foldl_write (hascending.imp (shlByte_write_of_lt s.n)), if_pos (List.mem_range.mpr hi)]
    exact s.shiftLeft_read hi

/-! ### The pixels after a shift -/

/-- After SHR every column but the first shows its left neighbour (41_shifter.md R113). -/
theorem State.pixel_shiftRight_succ (s : State) {x y : Nat} (hx : x + 1 < 8 * s.cfg.n) (hy : y < 8) :
    s.shiftRight.pixel (x + 1) y = s.pixel x y :=
  s.pixel_shr_succ hx hy

/-- After SHR the first column is dark: its byte is the first of its row, so nothing is carried into it
(41_shifter.md R113). -/
theorem State.pixel_shiftRight_zero (s : State) {y : Nat} (hy : y < 8) : s.shiftRight.pixel 0 y = false := by
  have hx : 0 < 8 * s.cfg.n := Nat.mul_pos (by decide) s.cfg.n_pos
  have hfirst : idx s.cfg.n 0 y % s.cfg.n = 0 := idx_mod y hx
  have hbit : bitOf 0 = 7 := rfl
  rw [State.pixel, State.n_eq, State.shiftRight_cfg, s.shiftRight_read (idx_lt s.cfg.n_pos hx hy),
    shrByte_getLsbD _ _ _ (bitOf_lt 0), if_pos hbit]
  simp [hfirst]

/-- A pixel after SHL, as a bit of SHL's byte. -/
theorem State.pixel_shiftLeft (s : State) {x y : Nat} (hx : x < 8 * s.cfg.n) (hy : y < 8) :
    s.shiftLeft.pixel x y = (shlByte s.cfg.n s.fb (idx s.cfg.n x y)).getLsbD (bitOf x) := by
  rw [State.pixel, State.n_eq, State.shiftLeft_cfg, s.shiftLeft_read (idx_lt s.cfg.n_pos hx hy)]

/-- After SHL every column but the last shows its right neighbour (41_shifter.md R114). -/
theorem State.pixel_shiftLeft_of_succ_lt (s : State) {x y : Nat} (hx : x + 1 < 8 * s.cfg.n) (hy : y < 8) :
    s.shiftLeft.pixel x y = s.pixel (x + 1) y := by
  rw [s.pixel_shiftLeft (Nat.lt_of_succ_lt hx) hy, shlByte_getLsbD _ _ _ (bitOf_lt x), State.pixel, State.n_eq]
  by_cases hedge : (x + 1) % 8 = 0
  · have hbit : bitOf x = 0 := by unfold bitOf; omega
    have htop : bitOf (x + 1) = 7 := by unfold bitOf; omega
    have hchip : chipIndex (x + 1) = chipIndex x + 1 := by unfold chipIndex; omega
    have hidx : idx s.cfg.n x y + 1 = idx s.cfg.n (x + 1) y := by unfold idx; omega
    rw [if_pos hbit, hidx, htop, idx_mod y hx, hchip]
    simp
  · have hbit : bitOf x - 1 = bitOf (x + 1) := by unfold bitOf; omega
    have hidx : idx s.cfg.n x y = idx s.cfg.n (x + 1) y := by unfold idx chipIndex; omega
    rw [if_neg (by unfold bitOf; omega), hbit, hidx]

/-- After SHL the last column is dark: its byte is the last of its row, so nothing is carried into it
(41_shifter.md R114). -/
theorem State.pixel_shiftLeft_last (s : State) {x y : Nat} (hx : x + 1 = 8 * s.cfg.n) (hy : y < 8) :
    s.shiftLeft.pixel x y = false := by
  have hbit : bitOf x = 0 := by unfold bitOf; omega
  have hchip : chipIndex x + 1 = s.cfg.n := by unfold chipIndex; omega
  have hlast : (idx s.cfg.n x y + 1) % s.cfg.n = 0 := by
    rw [idx, Nat.add_right_comm, hchip, Nat.add_mul_mod_self_left, Nat.mod_self]
  rw [s.pixel_shiftLeft (by omega) hy, shlByte_getLsbD _ _ _ (bitOf_lt x), if_pos hbit]
  simp [hlast]

/-- Settles O14: the first column takes no carry, every other its left neighbour. -/
theorem shrMovesPixelsRight : Obligations.ShrMovesPixelsRight := by
  refine fun s => ⟨_, exec_shr_eq s, fun y hy => ⟨s.pixel_shiftRight_zero hy, fun x hx1 hx => ?_⟩⟩
  obtain ⟨x, rfl⟩ := Nat.exists_eq_add_of_le' hx1
  exact s.pixel_shiftRight_succ (Nat.add_lt_of_lt_sub hx) hy

/-- Settles O15: the last column takes no carry, every other its right neighbour. -/
theorem shlMovesPixelsLeft : Obligations.ShlMovesPixelsLeft := by
  refine fun s => ⟨_, exec_shl_eq s, fun y hy => ⟨s.pixel_shiftLeft_last ?_ hy, fun x hx => ?_⟩⟩
  · have := s.cfg.n_pos
    rw [State.n_eq]
    omega
  · exact s.pixel_shiftLeft_of_succ_lt hx hy

/-! ### Round trips and repeated shifts -/

/-- A command that always completes, run k times. -/
theorem execAll_replicate {i : Instr} {f : State → State} (h : ∀ s, exec i s = .next (f s)) (k : Nat) (s : State) :
    execAll (List.replicate k i) s = .next (f^[k] s) := by
  induction k generalizing s with
  | zero => rfl
  | succ k ih => exact (execAll_cons _ (h s)).trans (ih (f s))

/-- After k shifts right a column shows the one k to its left, and is dark where there is none (41_shifter.md R115). -/
theorem State.pixel_iterate_shiftRight (k : Nat) (s : State) {x y : Nat} (hx : x < 8 * s.cfg.n) (hy : y < 8) :
    (State.shiftRight^[k] s).pixel x y = if k ≤ x then s.pixel (x - k) y else false := by
  induction k generalizing s with
  | zero => simp
  | succ k ih =>
    rw [Function.iterate_succ_apply, ih s.shiftRight hx]
    obtain hmoved | hfirst | hlost : k + 1 ≤ x ∨ x = k ∨ x < k := by omega
    · have hleft : x - k = x - (k + 1) + 1 := by omega
      rw [if_pos (Nat.le_of_succ_le hmoved), if_pos hmoved, hleft, s.pixel_shiftRight_succ (by omega) hy]
    · subst hfirst
      simp [s.pixel_shiftRight_zero hy]
    · rw [if_neg (by omega), if_neg (by omega)]

/-- After k shifts left a column shows the one k to its right, and is dark where there is none (41_shifter.md R115). -/
theorem State.pixel_iterate_shiftLeft (k : Nat) (s : State) {x y : Nat} (hx : x < 8 * s.cfg.n) (hy : y < 8) :
    (State.shiftLeft^[k] s).pixel x y = if x + k < 8 * s.cfg.n then s.pixel (x + k) y else false := by
  induction k generalizing s with
  | zero => simp [hx]
  | succ k ih =>
    rw [Function.iterate_succ_apply, ih s.shiftLeft hx, State.shiftLeft_cfg]
    obtain hmoved | hlast | hlost :
      x + k + 1 < 8 * s.cfg.n ∨ x + k + 1 = 8 * s.cfg.n ∨ 8 * s.cfg.n ≤ x + k := by omega
    · rw [if_pos (Nat.lt_of_succ_lt hmoved), s.pixel_shiftLeft_of_succ_lt hmoved hy]
      exact (if_pos hmoved).symm
    · rw [s.pixel_shiftLeft_last hlast hy, ite_self, if_neg (by omega)]
    · rw [if_neg (by omega), if_neg (by omega)]

/-- Settles O16: each shift undoes the other but for the column it darkens, and the pixels of k shifts are those of k
columns further off, of which 8·N shifts leave none. -/
theorem shiftRoundTrips : Obligations.ShiftRoundTrips := by
  refine ⟨fun s => ?_, fun s => ?_, fun s k => ?_, fun s => ?_⟩
  · refine ⟨_, execAll_pair (exec_shl_eq s) (exec_shr_eq _), fun y hy =>
      ⟨s.shiftLeft.pixel_shiftRight_zero hy, fun x hx1 hx => ?_⟩⟩
    obtain ⟨x, rfl⟩ := Nat.exists_eq_add_of_le' hx1
    have hlt : x + 1 < 8 * s.cfg.n := Nat.add_lt_of_lt_sub hx
    exact (s.shiftLeft.pixel_shiftRight_succ hlt hy).trans (s.pixel_shiftLeft_of_succ_lt hlt hy)
  · have hlast : 8 * s.cfg.n - 1 + 1 = 8 * s.cfg.n := by have := s.cfg.n_pos; omega
    exact ⟨_, execAll_pair (exec_shr_eq s) (exec_shl_eq _), fun y hy =>
      ⟨s.shiftRight.pixel_shiftLeft_last hlast hy, fun x hx =>
        (s.shiftRight.pixel_shiftLeft_of_succ_lt hx hy).trans (s.pixel_shiftRight_succ hx hy)⟩⟩
  · exact ⟨_, _, execAll_replicate exec_shr_eq k s, execAll_replicate exec_shl_eq k s, fun x y hx hy =>
      ⟨s.pixel_iterate_shiftRight k hx hy, s.pixel_iterate_shiftLeft k hx hy⟩⟩
  · refine ⟨_, _, execAll_replicate exec_shr_eq _ s, execAll_replicate exec_shl_eq _ s, fun x y hx hy => ⟨?_, ?_⟩⟩
    · rw [s.pixel_iterate_shiftRight _ hx hy, if_neg (Nat.not_le.mpr hx)]
    · rw [s.pixel_iterate_shiftLeft _ hx hy, if_neg (Nat.not_lt.mpr (Nat.le_add_left _ _))]

end Sys2Proof.Machine
end

section
/-! PROOF. The chain protocol of 42_chain_protocol.md: the groups of packets that a command sends, what a group leaves
in the attached chain, and the effect of each chain command. -/

namespace Sys2Proof.Machine

/-! ### Packets and groups -/

/-- A packet as data: its two bytes, and whether the data byte goes LSB first (42_chain_protocol.md R133). -/
structure Packet where
  cmd : Byte
  data : Byte
  lsbFirst : Bool

/-- The tokens of a packet (42_chain_protocol.md R133). -/
def Packet.tokens (p : Packet) : List Token :=
  if p.lsbFirst then sendPixPair p.cmd p.data else sendPair p.cmd p.data

/-- The data byte as a chip receives it: a pixel packet arrives reversed (42_chain_protocol.md R132, R142). -/
def Packet.received (p : Packet) : Byte := if p.lsbFirst then rev8 p.data else p.data

/-- The tokens of a whole group: its packets, then a latch (42_chain_protocol.md R141). -/
def groupTokens (g : List Packet) : List Token := g.flatMap Packet.tokens ++ latchTokens

/-- The no-op packet (42_chain_protocol.md R133). -/
def noopPacket (cfg : Config) : Packet := ⟨cfg.cmdNoop, cfg.dataNoop, false⟩

/-- The group of BCAST (42_chain_protocol.md R135). -/
def bcastGroup (cfg : Config) (cmd data : Byte) : List Packet := List.replicate cfg.n ⟨cmd, data, false⟩

/-- The group of ADDR (42_chain_protocol.md R136). -/
def addrGroup (cfg : Config) (k : Nat) (cmd data : Byte) : List Packet :=
  List.replicate (cfg.n - k - 1) (noopPacket cfg) ++ ⟨cmd, data, false⟩ :: List.replicate k (noopPacket cfg)

/-- The group of REFROW (42_chain_protocol.md R137). -/
def rowGroup (cfg : Config) (fb : Memory) (row : Nat) : List Packet :=
  (List.range cfg.n).reverse.map fun c => ⟨cmdDigit row, fb.read (c + cfg.n * row), true⟩

/-- The groups that a command sends (42_chain_protocol.md R135 to R141). -/
def groupsOf (s : State) : Instr → List (List Packet)
  | .bcast cmd data => [bcastGroup s.cfg cmd data]
  | .addr chip cmd data => if chip < s.cfg.n then [addrGroup s.cfg chip cmd data] else []
  | .refrow row => [rowGroup s.cfg s.fb row]
  | .refdisp => (List.range 8).map (rowGroup s.cfg s.fb)
  | .setbrt level => if level ≤ brightMax then [bcastGroup s.cfg s.cfg.cmdIntensity (BitVec.ofNat 8 level)] else []
  | .init =>
    [bcastGroup s.cfg s.cfg.cmdDisptest s.cfg.dataDisptestOff, bcastGroup s.cfg s.cfg.cmdShutdown s.cfg.dataShutdownOff,
      bcastGroup s.cfg s.cfg.cmdScanlimit s.cfg.dataScanlimitAll] ++
      (List.range 8).map fun r => bcastGroup s.cfg (cmdDigit r) 0x00
  | .setpix _ _ => []
  | .clrpix _ _ => []
  | .getpix _ _ => []
  | .clrall => []
  | .shr => []
  | .shl => []
  | .fbrd _ => []

theorem bcastTokens_eq (cfg : Config) (cmd data : Byte) :
    bcastTokens cfg cmd data = groupTokens (bcastGroup cfg cmd data) := by
  rw [groupTokens, bcastGroup, List.flatMap_replicate]
  rfl

theorem addrTokens_of_lt {cfg : Config} {k : Nat} (h : k < cfg.n) (cmd data : Byte) :
    addrTokens cfg k cmd data = groupTokens (addrGroup cfg k cmd data) := by
  rw [addrTokens, if_pos h, groupTokens, addrGroup, List.flatMap_append, List.flatMap_cons, List.flatMap_replicate,
    List.flatMap_replicate, ← List.append_assoc]
  rfl

theorem addrTokens_of_le {cfg : Config} {k : Nat} (h : cfg.n ≤ k) (cmd data : Byte) :
    addrTokens cfg k cmd data = [] := if_neg (Nat.not_lt.mpr h)

theorem refrowTokens_eq (cfg : Config) (fb : Memory) (row : Nat) :
    refrowTokens cfg fb row = groupTokens (rowGroup cfg fb row) := by
  rw [groupTokens, rowGroup, List.flatMap_map]
  rfl

/-- What a command sends is whole groups (42_chain_protocol.md R141). -/
theorem tokensOf_eq_groups (s : State) (i : Instr) : tokensOf s i = (groupsOf s i).flatMap groupTokens := by
  cases i with
  | bcast cmd data => simp [tokensOf, groupsOf, bcastTokens_eq]
  | addr chip cmd data =>
    by_cases h : chip < s.cfg.n
    · simp [tokensOf, groupsOf, h, addrTokens_of_lt h]
    · simp [tokensOf, groupsOf, h, addrTokens_of_le (Nat.not_lt.mp h)]
  | refrow row => simp [tokensOf, groupsOf, refrowTokens_eq]
  | refdisp =>
    rw [groupsOf, List.flatMap_map]
    exact congrArg (List.flatMap · _) (funext (refrowTokens_eq s.cfg s.fb))
  | setbrt level =>
    simp only [tokensOf, groupsOf, setbrtTokens, bcastTokens_eq]
    split <;> simp
  | init =>
    simp only [tokensOf, groupsOf, initTokens, bcastTokens_eq, List.flatMap_append, List.flatMap_map,
      List.flatMap_cons, List.flatMap_nil, List.append_nil, List.append_assoc]
  | setpix | clrpix | getpix | clrall | shr | shl | fbrd => rfl

theorem length_bcastGroup (cfg : Config) (cmd data : Byte) : (bcastGroup cfg cmd data).length = cfg.n :=
  List.length_replicate

theorem length_addrGroup {cfg : Config} {k : Nat} (h : k < cfg.n) (cmd data : Byte) :
    (addrGroup cfg k cmd data).length = cfg.n := by
  simp only [addrGroup, List.length_append, List.length_cons, List.length_replicate]
  omega

theorem length_rowGroup (cfg : Config) (fb : Memory) (row : Nat) : (rowGroup cfg fb row).length = cfg.n := by
  simp [rowGroup]

/-- Every group has exactly N packets (42_chain_protocol.md R141). -/
theorem length_of_mem_groupsOf {s : State} {i : Instr} {g : List Packet} (h : g ∈ groupsOf s i) :
    g.length = s.cfg.n := by
  cases i with
  | bcast cmd data =>
    cases List.mem_singleton.mp h
    exact length_bcastGroup _ _ _
  | addr chip cmd data =>
    simp only [groupsOf, List.mem_ite_nil_right, List.mem_singleton] at h
    obtain ⟨hlt, rfl⟩ := h
    exact length_addrGroup hlt _ _
  | refrow row =>
    cases List.mem_singleton.mp h
    exact length_rowGroup _ _ _
  | refdisp =>
    obtain ⟨row, -, rfl⟩ := List.mem_map.mp h
    exact length_rowGroup _ _ _
  | setbrt level =>
    simp only [groupsOf, List.mem_ite_nil_right, List.mem_singleton] at h
    obtain ⟨-, rfl⟩ := h
    exact length_bcastGroup _ _ _
  | init =>
    simp only [groupsOf, List.mem_append, List.mem_cons, List.mem_map, List.not_mem_nil, or_false] at h
    obtain (rfl | rfl | rfl) | ⟨r, -, rfl⟩ := h <;> exact length_bcastGroup _ _ _
  | setpix | clrpix | getpix | clrall | shr | shl | fbrd => cases h

/-- A command sends a group per latch (42_chain_protocol.md R143). -/
theorem length_groupsOf (s : State) (i : Instr) : (groupsOf s i).length = latchCount s.cfg i := by
  cases i with
  | addr | setbrt =>
    simp only [groupsOf, latchCount]
    split <;> rfl
  | refdisp | init => simp [groupsOf, latchCount]
  | bcast | refrow | setpix | clrpix | getpix | clrall | shr | shl | fbrd => rfl

/-! ### Counting tokens -/

theorem countP_flatMap_of_forall {α β : Type} {p : β → Bool} {f : α → List β} {xs : List α} {k : Nat}
    (h : ∀ x ∈ xs, (f x).countP p = k) : (xs.flatMap f).countP p = xs.length * k := by
  rw [List.countP_flatMap, List.sum_eq_card_nsmul _ k (by simpa using h), List.length_map, smul_eq_mul]

/-- A group counts its packets, all alike, and its latch. -/
theorem countP_groupTokens {p : Token → Bool} {k : Nat} (g : List Packet)
    (h : ∀ x : Packet, x.tokens.countP p = k) :
    (groupTokens g).countP p = g.length * k + latchTokens.countP p := by
  rw [groupTokens, List.countP_append, countP_flatMap_of_forall fun x _ => h x]

/-- A command counts its groups, all alike. -/
theorem countP_tokensOf {p : Token → Bool} {k : Nat} (s : State) (i : Instr)
    (h : ∀ x : Packet, x.tokens.countP p = k) :
    (tokensOf s i).countP p = latchCount s.cfg i * (s.cfg.n * k + latchTokens.countP p) := by
  rw [tokensOf_eq_groups, ← length_groupsOf]
  exact countP_flatMap_of_forall fun g hg => by rw [countP_groupTokens g h, length_of_mem_groupsOf hg]

theorem Packet.countP_isXfer (p : Packet) : p.tokens.countP Token.isXfer = 2 := by
  unfold tokens; split <;> rfl

theorem Packet.countP_not_isXfer (p : Packet) : p.tokens.countP (fun t => !t.isXfer) = 0 := by
  unfold tokens; split <;> rfl

theorem Packet.countP_strobeRelease (p : Packet) : p.tokens.countP (· == .strobeRelease) = 0 := by
  unfold tokens; split <;> rfl

theorem countP_isXfer_tokensOf (s : State) (i : Instr) :
    (tokensOf s i).countP Token.isXfer = 2 * s.cfg.n * latchCount s.cfg i := by
  rw [countP_tokensOf s i Packet.countP_isXfer, show latchTokens.countP Token.isXfer = 0 from rfl]
  ring

theorem countP_not_isXfer_tokensOf (s : State) (i : Instr) :
    (tokensOf s i).countP (fun t => !t.isXfer) = 2 * latchCount s.cfg i := by
  rw [countP_tokensOf s i Packet.countP_not_isXfer, show latchTokens.countP (fun t => !t.isXfer) = 2 from rfl]
  ring

theorem count_strobeRelease_tokensOf (s : State) (i : Instr) :
    (tokensOf s i).count .strobeRelease = latchCount s.cfg i := by
  rw [List.count, countP_tokensOf s i Packet.countP_strobeRelease,
    show latchTokens.countP (· == .strobeRelease) = 1 from rfl]
  ring

/-- Every latch stands for 2·N + 2 tokens (42_chain_protocol.md R143). -/
theorem length_tokensOf (s : State) (i : Instr) :
    (tokensOf s i).length = latchCount s.cfg i * (2 * s.cfg.n + 2) := by
  rw [List.length_eq_countP_add_countP Token.isXfer]
  simp only [Bool.not_eq_true, Bool.decide_eq_false, countP_isXfer_tokensOf, countP_not_isXfer_tokensOf]
  ring

/-- Settles O25: every command sends its groups, and each group counts N packets and a latch. -/
theorem tokenCounts : Obligations.TokenCounts :=
  ⟨fun i s => ⟨_, tokensOf s i, exec_eq i s, State.emitAll_out _ _, countP_isXfer_tokensOf s i,
      countP_not_isXfer_tokensOf s i, count_strobeRelease_tokensOf s i⟩,
    fun _ _ s hd => runWord_of_illegal s hd⟩

/-- The tokens of a list of N packets and a latch are a whole group. -/
theorem isGroup_groupTokens (g : List Packet) : IsGroup g.length (groupTokens g) := by
  refine ⟨g.map Packet.tokens, List.length_map _, fun ts hts => ?_, rfl⟩
  obtain ⟨p, -, rfl⟩ := List.mem_map.mp hts
  refine ⟨p.cmd, p.data, ?_⟩
  unfold Packet.tokens
  split
  · exact .inr rfl
  · exact .inl rfl

/-- Settles O24: each command of the list appends its own groups, and none changes N. -/
theorem groupInvariant : Obligations.GroupInvariant := by
  intro is
  induction is with
  | nil => exact fun s => ⟨s, [], rfl, by simp, by simp⟩
  | cons i is ih =>
    intro s
    obtain ⟨t, groups, hexec, hout, hgroups⟩ :=
      ih (({ s with fb := fbAfter s i, rsp := rspAfter s i } : State).emitAll (tokensOf s i))
    refine ⟨t, (groupsOf s i).map groupTokens ++ groups, (execAll_cons is (exec_eq i s)).trans hexec, ?_, ?_⟩
    · rw [hout, State.emitAll_out, tokensOf_eq_groups, List.flatten_append, List.append_assoc, List.flatMap_def]
    · intro ts hts
      rcases List.mem_append.mp hts with hts | hts
      · obtain ⟨g, hg, rfl⟩ := List.mem_map.mp hts
        simpa only [length_of_mem_groupsOf hg] using isGroup_groupTokens g
      · simpa using hgroups ts hts

/-! ### What a chain command changes -/

/-- A chain command sends its tokens and does nothing else (42_chain_protocol.md R144). -/
theorem exec_of_isChainCommand {i : Instr} (h : isChainCommand i = true) (s : State) :
    exec i s = .next (s.emitAll (tokensOf s i)) := by
  cases i with
  | bcast | addr | refrow | refdisp | setbrt | init => rfl
  | setpix | clrpix | getpix | clrall | shr | shl | fbrd => cases h

/-- Only REFROW and REFDISP send what the framebuffer holds (42_chain_protocol.md R144). -/
theorem tokensOf_setFb {i : Instr} (s : State) (m : Memory) (hrow : ∀ row, i ≠ .refrow row)
    (hdisp : i ≠ .refdisp) : tokensOf (s.setFb m) i = tokensOf s i := by
  cases i with
  | refrow row => exact absurd rfl (hrow row)
  | refdisp => exact absurd rfl hdisp
  | bcast | addr | setbrt | init | setpix | clrpix | getpix | clrall | shr | shl | fbrd => rfl

theorem State.emitAll_setFb (s : State) (m : Memory) (ts : List Token) :
    (s.setFb m).emitAll ts = (s.emitAll ts).setFb m := by
  simp only [State.emitAll_eq, State.setFb_eq]

/-- Settles O26: a chain command only sends tokens, which for the four do not depend on the framebuffer. -/
theorem chainCommandsAndFramebuffer : Obligations.ChainCommandsAndFramebuffer := by
  refine ⟨fun i s hi => ⟨_, exec_of_isChainCommand hi s, State.emitAll_fb _ _⟩, fun i s m hi hrow hdisp => ?_⟩
  refine ⟨_, exec_of_isChainCommand hi s, ?_⟩
  rw [exec_of_isChainCommand hi, tokensOf_setFb s m hrow hdisp, State.emitAll_setFb]

/-- A command that sends a group at all leaves the line high, wherever it was before (42_chain_protocol.md R134). -/
theorem strobeAfter_tokensOf_of_latch {s : State} {i : Instr} (h : latchCount s.cfg i ≠ 0) (l : Bool) :
    strobeAfter (tokensOf s i) l = true := by
  rw [← length_groupsOf] at h
  rw [tokensOf_eq_groups]
  cases hg : groupsOf s i with
  | nil => simp [hg] at h
  | cons g gs =>
    rw [List.flatMap_cons, strobeAfter_append, groupTokens, strobeAfter_append_latchTokens]
    exact strobeAfter_flatMap_true _ fun _ => strobeAfter_append_latchTokens _ _

/-- A command that latches leaves STROBE 1 and changes nothing but OUT, STROBE and the chain. -/
theorem State.emitAll_tokensOf_frame {s : State} {i : Instr} (h : latchCount s.cfg i ≠ 0) :
    s.emitAll (tokensOf s i) = { s with
      out := (s.emitAll (tokensOf s i)).out
      strobe := true
      chain := (s.emitAll (tokensOf s i)).chain } := by
  rw [State.emitAll_eq, strobeAfter_tokensOf_of_latch h]

theorem State.length_out_emitAll_tokensOf (s : State) (i : Instr) :
    (s.emitAll (tokensOf s i)).out.length = s.out.length + latchCount s.cfg i * (2 * s.cfg.n + 2) := by
  rw [State.emitAll_out, List.length_append, length_tokensOf]

theorem State.length_out_emitAll_tokensOf_of_one {s : State} {i : Instr} (h : latchCount s.cfg i = 1) :
    (s.emitAll (tokensOf s i)).out.length = s.out.length + (2 * s.cfg.n + 2) := by
  rw [State.length_out_emitAll_tokensOf, h, one_mul]

/-- A command's tokens do not depend on the tokens sent before. -/
theorem tokensOf_emitAll (s : State) (ts : List Token) : tokensOf (s.emitAll ts) = tokensOf s := by
  funext i
  cases i <;> simp only [tokensOf, State.emitAll_cfg, State.emitAll_fb]

/-- Chain commands run one after another send their tokens one after another, all from the first state. -/
theorem execAll_of_isChainCommand {is : List Instr} (h : ∀ i ∈ is, isChainCommand i = true) (s : State) :
    execAll is s = .next (s.emitAll (is.flatMap (tokensOf s))) := by
  induction is generalizing s with
  | nil => rfl
  | cons i is ih =>
    rw [execAll_cons is (exec_of_isChainCommand (h i List.mem_cons_self) s),
      ih fun j hj => h j (List.mem_cons_of_mem i hj)]
    simp only [tokensOf_emitAll, List.flatMap_cons, State.emitAll_append]

/-- Settles O20: the word is REFROW's own, and its tokens are one group. -/
theorem refrowEffect : Obligations.RefrowEffect := by
  refine ⟨fun row hrow => ?_, fun s row => ?_⟩
  · refine decode_ofNat_of_encode (i := .refrow row) (decide_eq_true hrow) ?_
    rw [encode_refrow_toNat]
    omega
  · refine ⟨_, exec_of_isChainCommand (i := .refrow row) rfl s, State.emitAll_tokensOf_frame one_ne_zero,
      State.emitAll_out _ _, State.length_out_emitAll_tokensOf_of_one rfl⟩

/-- Settles O21: REFDISP's tokens are those of the eight rows in order, eight groups. -/
theorem refdispEffect : Obligations.RefdispEffect := by
  refine ⟨decodeOfEncode .refdisp rfl, fun s => ⟨_, exec_of_isChainCommand (i := .refdisp) rfl s,
    State.emitAll_tokensOf_frame (OfNat.ofNat_ne_zero 8), ?_, State.length_out_emitAll_tokensOf s .refdisp⟩⟩
  have hrows : tokensOf s .refdisp = ((List.range 8).map Instr.refrow).flatMap (tokensOf s) := by
    rw [List.flatMap_map]
    rfl
  rw [hrows]
  exact execAll_of_isChainCommand (is := (List.range 8).map Instr.refrow) (by simp [isChainCommand]) s

/-- Settles O22: the tokens of SETBRT are BCAST's up to level 15, and none above. -/
theorem setbrtEffect : Obligations.SetbrtEffect := by
  refine ⟨fun level hlevel => ?_, fun s level => ?_⟩
  · refine decode_ofNat_of_encode (i := .setbrt level) (decide_eq_true hlevel) ?_
    rw [encode_setbrt_toNat]
    omega
  · refine ⟨_, exec_of_isChainCommand (i := .setbrt level) rfl s, fun hle => ?_, fun hlt => ?_⟩
    · have htokens : tokensOf s (.setbrt level) =
          tokensOf s (.bcast s.cfg.cmdIntensity (BitVec.ofNat 8 level)) := if_pos hle
      rw [htokens]
      exact ⟨exec_of_isChainCommand rfl s, State.emitAll_tokensOf_frame one_ne_zero,
        State.length_out_emitAll_tokensOf_of_one rfl⟩
    · have htokens : tokensOf s (.setbrt level) = [] := if_neg (Nat.not_le.mpr hlt)
      rw [htokens, State.emitAll_nil]

/-- The broadcasts that INIT stands for (42_chain_protocol.md R140). -/
def initBroadcasts (cfg : Config) : List Instr :=
  [Instr.bcast cfg.cmdDisptest cfg.dataDisptestOff, .bcast cfg.cmdShutdown cfg.dataShutdownOff,
    .bcast cfg.cmdScanlimit cfg.dataScanlimitAll] ++ (List.range 8).map fun r => Instr.bcast (cmdDigit r) 0x00

theorem tokensOf_init (s : State) : tokensOf s .init = (initBroadcasts s.cfg).flatMap (tokensOf s) := by
  simp only [tokensOf, initTokens, initBroadcasts, List.flatMap_append, List.flatMap_map, List.flatMap_cons,
    List.flatMap_nil, List.append_nil, List.append_assoc]

/-- Settles O23: INIT's tokens are those of its broadcasts in order, eleven groups. -/
theorem initEffect : Obligations.InitEffect := by
  refine ⟨decodeOfEncode .init rfl, fun s => ⟨_, exec_of_isChainCommand (i := .init) rfl s,
    State.emitAll_tokensOf_frame (OfNat.ofNat_ne_zero 11), ?_, State.length_out_emitAll_tokensOf s .init⟩⟩
  rw [tokensOf_init]
  exact execAll_of_isChainCommand (is := initBroadcasts s.cfg) (by simp [initBroadcasts, isChainCommand]) s

/-- Settles O19: below N the tokens are one group, at or above N there are none, and with one chip the group is
BCAST's. -/
theorem addrEffect : Obligations.AddrEffect := by
  refine ⟨fun k cmd data hk => ?_, fun s k cmd data => ?_⟩
  · refine decode_ofNat_of_encode (i := .addr k cmd data) (decide_eq_true hk) ?_
    rw [encode_addr_toNat]
    omega
  · refine ⟨_, exec_of_isChainCommand (i := .addr k cmd data) rfl s, fun hle => ?_, fun hlt => ?_, fun hn hk => ?_⟩
    · rw [tokensOf, addrTokens_of_le hle, State.emitAll_nil]
    · have hlatch : latchCount s.cfg (.addr k cmd data) = 1 := if_pos hlt
      refine ⟨State.emitAll_tokensOf_frame (hlatch ▸ one_ne_zero), ?_,
        State.length_out_emitAll_tokensOf_of_one hlatch⟩
      rw [State.emitAll_out, tokensOf, addrTokens, if_pos hlt]
      rfl
    · have hgroup : addrTokens s.cfg k cmd data = bcastTokens s.cfg cmd data := by
        rw [State.n_eq] at hn
        rw [addrTokens_of_lt (by omega), bcastTokens_eq, addrGroup, bcastGroup, hn, hk]
        rfl
      rw [tokensOf, hgroup]
      exact exec_of_isChainCommand (i := .bcast cmd data) rfl s

/-! ### Bits on the wire -/

theorem rev8_getLsbD (b : Byte) {k : Nat} (hk : k < 8) : (rev8 b).getLsbD k = b.getLsbD (7 - k) := by
  unfold rev8
  interval_cases k <;> simp only [BitVec.getLsbD_append, BitVec.getLsbD_ofBool] <;> rfl

/-- LSB first is MSB first of the reversed byte (42_chain_protocol.md R132). -/
theorem bitsLSB_eq_reverse_rev8 (b : Byte) : bitsLSB b = (bitsLSB (rev8 b)).reverse := by
  refine List.ext_getElem (by simp [bitsLSB]) fun k hk _ => ?_
  have hlt : k < 8 := by simpa [bitsLSB] using hk
  simp only [bitsLSB, List.getElem_reverse, List.getElem_map, List.getElem_range, List.length_map, List.length_range]
  rw [rev8_getLsbD b (by omega)]
  congr 1
  omega

/-- Settles O17: the bits of a byte in the two orders, one the reverse of the other. -/
theorem wireBitOrder : Obligations.WireBitOrder :=
  fun b => ⟨rfl, rfl, bitsLSB_eq_reverse_rev8 b⟩

/-! ### What a group leaves in the chain -/

/-- One wire bit moves every place of the line on by one (60_exceptions.md R187). -/
theorem Chain.lineBit_shiftBit {c : Chain} {p : Nat} (b : Bool) (hp : p < 16 * c.len) :
    (c.shiftBit b).lineBit p = if p = 0 then b else c.lineBit (p - 1) := by
  cases p with
  | zero => simp [Chain.lineBit, Chain.shiftBit_wire, hp]
  | succ p =>
    rw [Chain.lineBit, Chain.shiftBit_wire, List.getElem?_take, if_pos hp, List.getElem?_cons_succ, if_neg (by simp),
      Nat.add_sub_cancel, Chain.lineBit]
    cases hw : c.wire[p]? with
    | some b' => rfl
    | none =>
      have hlen : c.wire.length ≤ p := List.getElem?_eq_none_iff.mp hw
      have hcut : ((b :: c.wire).take (16 * c.len)).length = c.wire.length + 1 := by
        rw [List.length_take, List.length_cons]
        omega
      simp only [hcut, Nat.add_sub_add_right]

/-- Wire bits stand at the near end of the line, the newest first; the places behind keep what they held. -/
theorem Chain.lineBit_shiftBits {c : Chain} {p : Nat} (bs : List Bool) (hp : p < 16 * c.len) :
    (c.shiftBits bs).lineBit p = bs.reverse[p]?.getD (c.lineBit (p - bs.length)) := by
  induction bs using List.reverseRecOn generalizing p with
  | nil => rfl
  | append_singleton bs b ih =>
    have hfold : c.shiftBits (bs ++ [b]) = (c.shiftBits bs).shiftBit b := List.foldl_concat ..
    rw [hfold, Chain.lineBit_shiftBit b (by simpa using hp)]
    cases p with
    | zero => simp
    | succ p => simp [ih (Nat.lt_of_succ_lt hp)]

/-- A byte has entered, its bit 7 first. -/
def Chain.shiftByte (c : Chain) (b : Byte) : Chain := c.shiftBits (Token.xferMSB b).wireBits

@[simp] theorem Chain.shiftByte_len (c : Chain) (b : Byte) : (c.shiftByte b).len = c.len := Chain.shiftBits_len _ _

@[simp] theorem Chain.shiftByte_regs (c : Chain) (b : Byte) : (c.shiftByte b).regs = c.regs := Chain.shiftBits_regs _ _

theorem Chain.lineBit_shiftByte {c : Chain} {p : Nat} (b : Byte) (hp : p < 16 * c.len) :
    (c.shiftByte b).lineBit p = if p < 8 then b.getLsbD p else c.lineBit (p - 8) := by
  rw [Chain.shiftByte, Chain.lineBit_shiftBits _ hp, Token.wireBits, List.reverse_reverse, List.length_reverse]
  by_cases h : p < 8 <;> simp [bitsLSB, h]

/-- A packet enters as its command byte and then its data byte as received. -/
theorem Chain.feed_packet (noop : Byte) (l : Bool) (c : Chain) (p : Packet) :
    Chain.feed noop l c p.tokens = (c.shiftByte p.cmd).shiftByte p.received := by
  obtain ⟨cmd, data, lsbFirst⟩ := p
  cases lsbFirst with
  | false => rfl
  | true => exact congrArg (Chain.shiftBits (c.shiftByte cmd)) (bitsLSB_eq_reverse_rev8 data)

/-- What a stage holds when a packet fills it: the command byte above the data byte (42_chain_protocol.md R142). -/
def Packet.word (p : Packet) : BitVec 16 := p.cmd ++ p.received

theorem Packet.extractLsb'_word_cmd (p : Packet) : p.word.extractLsb' 8 8 = p.cmd :=
  BitVec.extractLsb'_append_eq_left

theorem Packet.extractLsb'_word_received (p : Packet) : p.word.extractLsb' 0 8 = p.received :=
  BitVec.extractLsb'_append_eq_right

/-- A packet fills the stage nearest the host. -/
theorem Chain.stage_feed_packet_zero (noop : Byte) (l : Bool) {c : Chain} (p : Packet) (h : 0 < c.len) :
    (Chain.feed noop l c p.tokens).stage 0 = p.word := by
  refine BitVec.eq_of_getLsbD_eq fun j hj => ?_
  rw [Chain.stage_getLsbD _ _ _ hj, Chain.feed_packet, Chain.lineBit_shiftByte _ (by simp; omega),
    Chain.lineBit_shiftByte _ (by omega), Packet.word, BitVec.getLsbD_append]
  by_cases hlow : j < 8
  · simp [hlow]
  · have hhigh : j - 8 < 8 := by omega
    simp [hlow, hhigh]

/-- A packet moves what every stage held on to the next. -/
theorem Chain.stage_feed_packet_succ (noop : Byte) (l : Bool) {c : Chain} {k : Nat} (p : Packet) (h : k + 1 < c.len) :
    (Chain.feed noop l c p.tokens).stage (k + 1) = c.stage k := by
  refine BitVec.eq_of_getLsbD_eq fun j hj => ?_
  rw [Chain.stage_getLsbD _ _ _ hj, Chain.stage_getLsbD _ _ _ hj, Chain.feed_packet,
    Chain.lineBit_shiftByte _ (by simp; omega), Chain.lineBit_shiftByte _ (by omega), if_neg (by omega),
    if_neg (by omega)]
  congr 1
  omega

/-- After packets, stage k holds the one that was sent k before the last (60_exceptions.md R187). -/
theorem Chain.stage_feed_packets (noop : Byte) (l : Bool) {c : Chain} {k : Nat} {ps : List Packet} {p : Packet}
    (hk : k < c.len) (hp : ps.reverse[k]? = some p) :
    (Chain.feed noop l c (ps.flatMap Packet.tokens)).stage k = p.word := by
  induction ps using List.reverseRecOn generalizing k with
  | nil => simp at hp
  | append_singleton ps q ih =>
    rw [List.flatMap_append, List.flatMap_singleton, Chain.feed_append]
    rw [List.reverse_append, List.reverse_singleton, List.singleton_append] at hp
    cases k with
    | zero =>
      cases hp
      exact Chain.stage_feed_packet_zero _ _ _ (by simpa using hk)
    | succ k =>
      rw [Chain.stage_feed_packet_succ _ _ _ (by simpa using hk)]
      exact ih (Nat.lt_of_succ_lt hk) hp

/-- Packets alone write no register (60_exceptions.md R188). -/
theorem Chain.feed_packets_regs (noop : Byte) (l : Bool) (c : Chain) (ps : List Packet) :
    (Chain.feed noop l c (ps.flatMap Packet.tokens)).regs = c.regs := by
  induction ps generalizing l c with
  | nil => rfl
  | cons p ps ih => simp [Chain.feed_append, Chain.feed_packet, ih]

/-- A latch writes what each stage holds into the register it names, unless that is CMD_NOOP
(60_exceptions.md R188). -/
theorem Chain.reg_latch (noop : Byte) {c : Chain} {k : Nat} (a : Byte) (hk : k < c.len) :
    (c.latch noop).reg k a =
      if (c.stage k).extractLsb' 8 8 = a ∧ a ≠ noop then (c.stage k).extractLsb' 0 8 else c.reg k a := by
  rw [Chain.reg, Chain.latch, Chain.find?_commits]
  simp only [hk, true_and]
  split <;> rfl

/-- After a whole group, chip k has taken the packet that was sent k before the last (42_chain_protocol.md R142). -/
theorem Chain.reg_feed_group (noop : Byte) (l : Bool) {c : Chain} {k : Nat} {g : List Packet} {p : Packet} (a : Byte)
    (hk : k < c.len) (hp : g.reverse[k]? = some p) :
    (Chain.feed noop l c (groupTokens g)).reg k a = if a = p.cmd ∧ a ≠ noop then p.received else c.reg k a := by
  have hlatch : ∀ l' c', Chain.feed noop l' c' latchTokens = c'.latch noop := fun _ _ => rfl
  rw [groupTokens, Chain.feed_append, hlatch, Chain.reg_latch noop a (by simpa using hk),
    Chain.stage_feed_packets noop l hk hp, p.extractLsb'_word_cmd, p.extractLsb'_word_received, Chain.reg,
    Chain.feed_packets_regs]
  exact if_congr (and_congr_left fun _ => eq_comm) rfl rfl

/-- Settles O18: the word is BCAST's own, its tokens are one group, and every packet of the group is the same. -/
theorem bcastEffect : Obligations.BcastEffect := by
  refine ⟨fun cmd data => ?_, fun s cmd data => ?_⟩
  · refine decode_ofNat_of_encode (i := .bcast cmd data) rfl ?_
    rw [encode_bcast_toNat]
    omega
  · refine ⟨_, exec_of_isChainCommand (i := .bcast cmd data) rfl s, State.emitAll_tokensOf_frame one_ne_zero,
      State.emitAll_out _ _, State.length_out_emitAll_tokensOf_of_one rfl, fun hlen k a hk => ?_⟩
    have hpacket : (bcastGroup s.cfg cmd data).reverse[k]? = some ⟨cmd, data, false⟩ := by
      rw [bcastGroup, List.reverse_replicate, List.getElem?_replicate, if_pos hk]
    rw [State.emitAll_chain, tokensOf, bcastTokens_eq, Chain.reg_feed_group _ _ a (hlen ▸ hk) hpacket]
    exact if_congr (and_congr_right fun h => h ▸ Iff.rfl) rfl rfl

/-- The packet of REFROW that reaches chip `c`. -/
theorem rowGroup_reverse_getElem? {cfg : Config} {c : Nat} (fb : Memory) (row : Nat) (h : c < cfg.n) :
    (rowGroup cfg fb row).reverse[c]? = some ⟨cmdDigit row, fb.read (c + cfg.n * row), true⟩ := by
  rw [rowGroup, List.map_reverse, List.reverse_reverse, List.getElem?_map, List.getElem?_range h, Option.map_some]

/-- Bit j of the reversed byte at a chip's place in a row is the pixel at its column j (20_memory.md R41,
42_chain_protocol.md R145). -/
theorem rev8_read_getLsbD (s : State) (c y : Nat) {j : Nat} (hj : j < 8) :
    (rev8 (s.fb.read (c + s.n * y))).getLsbD j = s.pixel (8 * c + j) y := by
  have hchip : chipIndex (8 * c + j) = c := by unfold chipIndex; omega
  have hbit : bitOf (8 * c + j) = 7 - j := by unfold bitOf; omega
  rw [rev8_getLsbD _ hj, State.pixel, idx, hchip, hbit]

/-- Settles O30: chip c takes the packet of its own byte, which arrives reversed. -/
theorem refrowShowsRow : Obligations.RefrowShowsRow := by
  intro s y hlen hy
  have hreg : ∀ c a, c < s.n → (s.emitAll (refrowTokens s.cfg s.fb y)).chain.reg c a =
      if a = BitVec.ofNat 8 (y + 1) ∧ a ≠ s.cfg.cmdNoop then rev8 (s.fb.read (c + s.n * y))
      else s.chain.reg c a := by
    intro c a hc
    rw [State.emitAll_chain, refrowTokens_eq,
      Chain.reg_feed_group _ _ a (hlen ▸ hc) (rowGroup_reverse_getElem? s.fb y hc)]
    rfl
  refine ⟨_, exec_of_isChainCommand (i := .refrow y) rfl s, hreg, fun hnoop c j hc hj => ?_⟩
  rw [tokensOf, hreg c _ hc, if_pos ⟨rfl, hnoop⟩, rev8_read_getLsbD s c y hj]

end Sys2Proof.Machine
end

section
/-! PROOF. The exceptions and the attached chain of 60_exceptions.md: the silent rejections, construction and the
waiting block; how the stages shift and commit; and what each chain command leaves in the chips' registers. -/

namespace Sys2Proof.Machine

/-! ### Construction and waiting -/

/-- Settles O45: construction tests for zero first, and N is the number it is given. -/
theorem constructionRefusesZeroChips : Obligations.ConstructionRefusesZeroChips := by
  refine fun n o c => ⟨rfl, fun hpos hle => ?_⟩
  have hzero : n ≠ 0 := Nat.one_le_iff_ne_zero.mp hpos
  exact ⟨State.ofConfig { toOptions := o, chips := ⟨n, hpos, hle⟩ } c,
    (dif_neg hzero).trans (dif_pos hle), rfl, rfl, rfl⟩

/-- Settles O54: with an empty event list there is no event to serve. -/
theorem idleBlockWaits : Obligations.IdleBlockWaits :=
  fun _ hhost => step_eq_self (by rw [hhost]; rfl)

/-! ### Silent rejections -/

theorem rejY_mem_pixelRejections {cfg : Config} {x y : Nat} : Rejection.rejY ∈ pixelRejections cfg x y ↔ 7 < y := by
  simp [pixelRejections]

theorem rejX_mem_pixelRejections {cfg : Config} {x y : Nat} :
    Rejection.rejX ∈ pixelRejections cfg x y ↔
      (cfg.xbound = .exact ∧ 8 * cfg.n ≤ x) ∨ (cfg.xbound = .legacy ∧ 7 * cfg.n < x) := by
  have hmem : Rejection.rejX ∈ pixelRejections cfg x y ↔ xok cfg x = false := by simp [pixelRejections]
  rw [hmem]
  cases h : cfg.xbound with
  | exact => simp [xok_of_exact h]
  | legacy => simp [xok_of_legacy h]

/-- A coordinate that meets any rejection condition is invalid (20_memory.md R43, 60_exceptions.md R181). -/
theorem validPixel_of_pixelRejections {cfg : Config} {x y : Nat} (h : pixelRejections cfg x y ≠ []) :
    validPixel cfg x y = false := by
  by_contra hvalid
  obtain ⟨hx, hy⟩ := validPixel_iff.mp (Bool.eq_true_of_not_eq_false hvalid)
  exact h (by simp [pixelRejections, hx, hy])

theorem illegal_mem_wordRejections {cfg : Config} {w : Word} :
    Rejection.illegal ∈ wordRejections cfg w ↔ ∃ e, decode w = .error e := by
  unfold wordRejections
  cases decode w with
  | error e => simp
  | ok i => cases i <;> simp [rejections, pixelRejections]

/-- A command to which a rejection condition applies changes nothing but the response it gives (60_exceptions.md
R181). -/
theorem exec_of_rejections {i : Instr} {s : State} (h : rejections s.cfg i ≠ []) :
    exec i s = .next (if responds i then { s with rsp := some 0x00 } else s) := by
  cases i with
  | setpix x y =>
    exact (exec_putpix_eq s x y true).trans
      (congrArg _ (State.putPixel_of_invalid true (validPixel_of_pixelRejections h)))
  | clrpix x y =>
    exact (exec_putpix_eq s x y false).trans
      (congrArg _ (State.putPixel_of_invalid false (validPixel_of_pixelRejections h)))
  | getpix x y => simp [exec_getpix, validPixel_of_pixelRejections h, responds]
  | fbrd index =>
    have hout : ¬ index < 8 * s.n := fun hlt => h (if_pos hlt)
    rw [exec_fbrd, if_neg hout]
    rfl
  | addr chip cmd data =>
    have hout : s.cfg.n ≤ chip := Nat.not_lt.mp fun hlt => h (if_pos hlt)
    rw [exec_of_isChainCommand rfl, tokensOf, addrTokens_of_le hout]
    rfl
  | setbrt level =>
    have hout : ¬ level ≤ brightMax := fun hle => h (if_pos hle)
    rw [exec_of_isChainCommand rfl, tokensOf, setbrtTokens, if_neg hout]
    rfl
  | clrall | shr | shl | bcast | refrow | refdisp | init => exact absurd rfl h

/-- Settles O52: the conditions of each operand, and no command acts under any of them. -/
theorem rejectionsAreSilent : Obligations.RejectionsAreSilent := by
  refine ⟨fun cfg x y i hi => ?_, fun cfg v cmd data => ?_, fun _ _ => illegal_mem_wordRejections,
    fun _ _ => exec_of_rejections, fun w s h => ?_⟩
  · have hpixel : rejections cfg i = pixelRejections cfg x y := by
      simp only [List.mem_cons, List.not_mem_nil, or_false] at hi
      obtain rfl | rfl | rfl := hi <;> rfl
    rw [hpixel]
    exact ⟨rejY_mem_pixelRejections, rejX_mem_pixelRejections⟩
  · simp [rejections]
  · obtain ⟨e, hd⟩ := illegal_mem_wordRejections.mp h
    exact runWord_of_illegal s hd

/-! ### The stages -/

/-- One wire bit shifts every stage by one; bit 15 of the stage before enters, or the wire bit itself
(60_exceptions.md R187). -/
theorem Chain.stage_shiftBit {c : Chain} {k : Nat} (b : Bool) (hk : k < c.len) :
    (c.shiftBit b).stage k =
      ((c.stage k <<< 1) ||| BitVec.zeroExtend 16 (BitVec.ofBool
        (if k = 0 then b else (c.stage (k - 1)).getLsbD 15))) := by
  refine BitVec.eq_of_getLsbD_eq fun j hj => ?_
  rw [Chain.stage_getLsbD _ _ _ hj, Chain.lineBit_shiftBit b (by omega)]
  cases j with
  | zero =>
    cases k with
    | zero => simp
    | succ k =>
      have hcarry : c.lineBit (16 * (k + 1) - 1) = (c.stage k).getLsbD 15 :=
        (c.stage_getLsbD k 15 (by omega)).symm
      simp [hcarry]
  | succ j =>
    have hmoved : c.lineBit (16 * k + j) = (c.stage k).getLsbD j :=
      (c.stage_getLsbD k j (Nat.lt_of_succ_lt hj)).symm
    simp [← Nat.add_assoc, hmoved, hj, BitVec.getLsbD_eq_getElem (Nat.lt_of_succ_lt hj)]

/-- Packets leave the strobe line alone, so the chain sees all of them at one level. -/
theorem Chain.foldl_observe_packets (noop : Byte) (l : Bool) (c : Chain) (ps : List Packet) :
    (ps.flatMap Packet.tokens).foldl (Chain.observe noop l) c = Chain.feed noop l c (ps.flatMap Packet.tokens) := by
  induction ps generalizing c with
  | nil => rfl
  | cons p ps ih =>
    have hpacket : strobeAfter p.tokens l = l ∧
        p.tokens.foldl (Chain.observe noop l) c = Chain.feed noop l c p.tokens := by
      unfold Packet.tokens
      split <;> exact ⟨rfl, rfl⟩
    obtain ⟨hlevel, hfold⟩ := hpacket
    rw [List.flatMap_cons, List.foldl_append, hfold, ih, Chain.feed_append, hlevel]

/-- The packet that the statement's triple writes: command byte, data byte, LSB first or not. -/
def Packet.ofTriple (p : Byte × Byte × Bool) : Packet := ⟨p.1, p.2.1, p.2.2⟩

/-- Settles O27: the line moves by one place with each bit, and N packets fill the N stages. -/
theorem chainStagesShiftAndFill : Obligations.ChainStagesShiftAndFill := by
  refine ⟨fun c b k hk => Chain.stage_shiftBit b hk, fun noop strobe c packets hlen j hj => ?_⟩
  have htokens : packets.flatMap (fun p => if p.2.2 then sendPixPair p.1 p.2.1 else sendPair p.1 p.2.1) =
      (packets.map Packet.ofTriple).flatMap Packet.tokens := by
    rw [List.flatMap_map]
    rfl
  have hlast : (packets.map Packet.ofTriple).reverse[packets.length - 1 - j]? = some (Packet.ofTriple packets[j]) := by
    have hplace : packets.length - 1 - (packets.length - 1 - j) = j := by omega
    rw [List.getElem?_reverse (by rw [List.length_map]; omega), List.length_map, hplace, List.getElem?_map,
      List.getElem?_eq_getElem hj, Option.map_some]
  rw [htokens, Chain.foldl_observe_packets, Chain.stage_feed_packets _ _ (by omega) hlast]
  rfl

/-- Settles O28: only a release of a low line latches. -/
theorem chainLatchCommits : Obligations.ChainLatchCommits :=
  fun noop _ _ a hk => ⟨Chain.reg_latch noop a hk, Chain.latch_stage .., rfl, rfl, rfl⟩

/-! ### What groups leave in a chip's register -/

/-- What register `a` of chip `k` holds after the group `g`, holding `v` before it: the data of the packet that reaches
the chip, if that names the register and is no no-op (42_chain_protocol.md R142, 60_exceptions.md R188). -/
def regAfterGroup (noop : Byte) (k : Nat) (a v : Byte) (g : List Packet) : Byte :=
  match g.reverse[k]? with
  | some p => if a = p.cmd ∧ a ≠ noop then p.received else v
  | none => v

theorem regAfterGroup_of_getElem? {k : Nat} {g : List Packet} {p : Packet} (noop a v : Byte)
    (hp : g.reverse[k]? = some p) :
    regAfterGroup noop k a v g = if a = p.cmd ∧ a ≠ noop then p.received else v := by
  rw [regAfterGroup, hp]

/-- Groups of one packet per chip act on a chip's register one after another. -/
theorem Chain.reg_feed_groups (noop : Byte) (l : Bool) {c : Chain} {k : Nat} {gs : List (List Packet)} (a : Byte)
    (hk : k < c.len) (hgs : ∀ g ∈ gs, g.length = c.len) :
    (Chain.feed noop l c (gs.flatMap groupTokens)).reg k a = gs.foldl (regAfterGroup noop k a) (c.reg k a) := by
  induction gs generalizing l c with
  | nil => rfl
  | cons g gs ih =>
    have hg : k < g.reverse.length := by rw [List.length_reverse, hgs g List.mem_cons_self]; exact hk
    have hp : g.reverse[k]? = some g.reverse[k] := List.getElem?_eq_getElem hg
    rw [List.flatMap_cons, Chain.feed_append,
      ih _ (by simpa using hk) (by simpa using fun g' hg' => hgs g' (List.mem_cons_of_mem g hg')),
      Chain.reg_feed_group noop l a hk hp, List.foldl_cons, regAfterGroup_of_getElem? noop a _ hp]

/-- What a chain command leaves in a register of a chip: what its groups do to it, in order. -/
theorem State.reg_emitAll_tokensOf {s : State} {k : Nat} (i : Instr) (a : Byte) (hlen : s.chain.len = s.n)
    (hk : k < s.n) :
    (s.emitAll (tokensOf s i)).chain.reg k a =
      (groupsOf s i).foldl (regAfterGroup s.cfg.cmdNoop k a) (s.chain.reg k a) := by
  rw [State.emitAll_chain, tokensOf_eq_groups]
  exact Chain.reg_feed_groups _ _ a (hlen ▸ hk) fun g hg => (length_of_mem_groupsOf hg).trans hlen.symm

theorem regAfterGroup_bcastGroup {cfg : Config} {k : Nat} (cmd data noop a v : Byte) (hk : k < cfg.n) :
    regAfterGroup noop k a v (bcastGroup cfg cmd data) = if a = cmd ∧ a ≠ noop then data else v := by
  have hp : (bcastGroup cfg cmd data).reverse[k]? = some ⟨cmd, data, false⟩ := by
    rw [bcastGroup, List.reverse_replicate, List.getElem?_replicate, if_pos hk]
  exact regAfterGroup_of_getElem? noop a v hp

theorem regAfterGroup_rowGroup {cfg : Config} {k : Nat} (fb : Memory) (row : Nat) (noop a v : Byte) (hk : k < cfg.n) :
    regAfterGroup noop k a v (rowGroup cfg fb row) =
      if a = cmdDigit row ∧ a ≠ noop then rev8 (fb.read (k + cfg.n * row)) else v :=
  regAfterGroup_of_getElem? noop a v (rowGroup_reverse_getElem? fb row hk)

/-- The packet of ADDR that reaches chip `p`: the command's own at chip `k`, a no-op at every other. -/
theorem addrGroup_reverse_getElem? {cfg : Config} {k p : Nat} (cmd data : Byte) (hk : k < cfg.n) (hp : p < cfg.n) :
    (addrGroup cfg k cmd data).reverse[p]? = some (if p = k then ⟨cmd, data, false⟩ else noopPacket cfg) := by
  rw [addrGroup, List.reverse_append, List.reverse_cons, List.reverse_replicate, List.reverse_replicate,
    List.append_assoc, List.singleton_append]
  rcases Nat.lt_trichotomy p k with hlt | rfl | hgt
  · rw [List.getElem?_append_left (by simpa using hlt), List.getElem?_replicate, if_pos hlt, if_neg hlt.ne]
  · simp
  · obtain ⟨d, rfl⟩ := Nat.exists_eq_add_of_lt hgt
    rw [List.getElem?_append_right (by simp; omega), List.length_replicate, if_neg hgt.ne',
      show k + d + 1 - k = d + 1 by omega, List.getElem?_cons_succ, List.getElem?_replicate, if_pos (by omega)]

/-- ADDR's group writes one register of one chip; a no-op packet writes none (60_exceptions.md R190). -/
theorem regAfterGroup_addrGroup {cfg : Config} {k p : Nat} (cmd data a v : Byte) (hk : k < cfg.n) (hp : p < cfg.n) :
    regAfterGroup cfg.cmdNoop p a v (addrGroup cfg k cmd data) =
      if p = k ∧ a = cmd ∧ a ≠ cfg.cmdNoop then data else v := by
  rw [regAfterGroup_of_getElem? _ a v (addrGroup_reverse_getElem? cmd data hk hp)]
  by_cases hpk : p = k
  · simp [hpk, Packet.received]
  · simp [hpk, noopPacket]

/-! ### The effect of each command on the registers -/

/-- Settles O29: below N the one group reaches chip k alone; at or above N there is no group, and no chip k. -/
theorem addrReachesOneChip : Obligations.AddrReachesOneChip := by
  intro s k cmd data hlen
  refine ⟨_, exec_of_isChainCommand (i := .addr k cmd data) rfl s, fun p a hp => ?_⟩
  rw [State.reg_emitAll_tokensOf _ a hlen hp, groupsOf]
  by_cases hk : k < s.cfg.n
  · rw [if_pos hk, List.foldl_cons, List.foldl_nil, regAfterGroup_addrGroup cmd data a _ hk hp]
    exact if_congr (and_congr_right fun _ => and_congr_right fun h => h ▸ Iff.rfl) rfl rfl
  · have hpk : p ≠ k := fun h => hk (h ▸ hp)
    rw [if_neg hk, if_neg fun h => hpk h.1, List.foldl_nil]

/-- Settles O33: the one group of a level up to 15 is a broadcast, and a level above sends no group. -/
theorem setbrtSetsIntensity : Obligations.SetbrtSetsIntensity := by
  intro s level hlen
  refine ⟨_, exec_of_isChainCommand (i := .setbrt level) rfl s, fun k a hk => ?_⟩
  rw [State.reg_emitAll_tokensOf _ a hlen hk, groupsOf]
  by_cases hle : level ≤ 15
  · rw [if_pos hle, List.foldl_cons, List.foldl_nil, regAfterGroup_bcastGroup _ _ _ a _ hk]
    simp [hle]
  · simp [hle]

/-- A group either takes a register to one value or leaves it, whatever it held; so does a list of groups. -/
theorem foldl_regAfterGroup_const_or_id (noop : Byte) (k : Nat) (a : Byte) (gs : List (List Packet)) :
    (∃ w, ∀ v, gs.foldl (regAfterGroup noop k a) v = w) ∨ ∀ v, gs.foldl (regAfterGroup noop k a) v = v := by
  induction gs with
  | nil => exact .inr fun _ => rfl
  | cons g gs ih =>
    have hg : (∃ w, ∀ v, regAfterGroup noop k a v g = w) ∨ ∀ v, regAfterGroup noop k a v g = v := by
      unfold regAfterGroup
      split
      · split
        · exact .inl ⟨_, fun _ => rfl⟩
        · exact .inr fun _ => rfl
      · exact .inr fun _ => rfl
    simp only [List.foldl_cons]
    obtain ⟨w, hw⟩ | hid := ih
    · exact .inl ⟨w, fun _ => hw _⟩
    · obtain ⟨w, hw⟩ | hg := hg
      · exact .inl ⟨w, fun v => (hid _).trans (hw v)⟩
      · exact .inr fun v => (hid _).trans (hg v)

/-- A command's groups do not depend on the tokens sent before. -/
theorem groupsOf_emitAll (s : State) (ts : List Token) : groupsOf (s.emitAll ts) = groupsOf s := by
  funext i
  cases i <;> simp only [groupsOf, State.emitAll_cfg, State.emitAll_fb]

/-- Settles O34: the second issue sends the same groups, and the same groups twice are as once. -/
theorem chainCommandsIdempotentOnChips : Obligations.ChainCommandsIdempotentOnChips := by
  intro s i hlen hi
  refine ⟨_, _, exec_of_isChainCommand hi s, exec_of_isChainCommand hi _, fun k a hk => ?_⟩
  rw [State.reg_emitAll_tokensOf i a (by simpa using hlen) (by simpa using hk), groupsOf_emitAll,
    State.emitAll_cfg, State.reg_emitAll_tokensOf i a hlen hk]
  obtain ⟨w, hw⟩ | hid := foldl_regAfterGroup_const_or_id s.cfg.cmdNoop k a (groupsOf s i)
  · rw [hw, hw]
  · rw [hid]

/-! ### The digit registers -/

theorem eq_cmdDigit_iff {a : Byte} {r : Nat} (hr : r < 255) : a = cmdDigit r ↔ a.toNat = r + 1 := by
  rw [← BitVec.toNat_inj, cmdDigit, BitVec.toNat_ofNat, Nat.mod_eq_of_lt (by omega)]

/-- Groups for digits 1 to m, one after another: register `a` among them holds its own group's byte. -/
theorem foldl_digits {update : Byte → Nat → Byte} {f : Nat → Byte} {a noop : Byte} {m : Nat} (hm : m ≤ 255)
    (hupdate : ∀ v r, update v r = if a = cmdDigit r ∧ a ≠ noop then f r else v) (v : Byte) :
    (List.range m).foldl update v = if 1 ≤ a.toNat ∧ a.toNat ≤ m ∧ a ≠ noop then f (a.toNat - 1) else v := by
  induction m with
  | zero => rw [if_neg (by omega)]; rfl
  | succ m ih =>
    rw [List.range_succ, List.foldl_append, ih (by omega), List.foldl_cons, List.foldl_nil, hupdate]
    have hdigit : a = cmdDigit m ↔ a.toNat = m + 1 := eq_cmdDigit_iff (by omega)
    by_cases ha : a.toNat = m + 1
    · simp [hdigit, ha]
    · have hle : a.toNat ≤ m + 1 ↔ a.toNat ≤ m := by omega
      simp [hdigit, ha, hle]

/-- The registers after REFDISP: digit register y + 1 of chip c holds the reversed byte of row y (60_exceptions.md
R190). -/
theorem State.reg_emitAll_refdisp {s : State} {c : Nat} (a : Byte) (hlen : s.chain.len = s.n) (hc : c < s.n) :
    (s.emitAll (tokensOf s .refdisp)).chain.reg c a =
      if 1 ≤ a.toNat ∧ a.toNat ≤ 8 ∧ a ≠ s.cfg.cmdNoop then rev8 (s.fb.read (c + s.n * (a.toNat - 1)))
      else s.chain.reg c a := by
  rw [State.reg_emitAll_tokensOf _ a hlen hc, groupsOf, List.foldl_map]
  exact foldl_digits (f := fun row => rev8 (s.fb.read (c + s.n * row))) (by omega)
    (fun v row => regAfterGroup_rowGroup s.fb row _ a v hc) _

/-- Settles O31: digit register y + 1 holds the reversed byte of row y, whose bits are the chip's pixels. -/
theorem refdispShowsFramebuffer : Obligations.RefdispShowsFramebuffer := by
  intro s hlen
  refine ⟨_, exec_of_isChainCommand (i := .refdisp) rfl s, fun c y j hc hy hj hnoop => ?_, fun c a hc ha => ?_⟩
  · have hdigit : (BitVec.ofNat 8 (y + 1)).toNat = y + 1 := (eq_cmdDigit_iff (by omega)).mp rfl
    rw [State.reg_emitAll_refdisp _ hlen hc, hdigit, if_pos ⟨by omega, by omega, hnoop⟩, Nat.add_sub_cancel]
    exact rev8_read_getLsbD s c y hj
  · rw [State.reg_emitAll_refdisp a hlen hc, if_neg]
    rintro ⟨hpos, hle, hnoop⟩
    obtain rfl | hlt | rfl := ha
    · exact absurd hpos (by decide)
    · omega
    · exact hnoop rfl

/-- The registers after INIT, for any constants: the eight digits are cleared last, the other three commands come
before them, the first one first (42_chain_protocol.md R140). -/
theorem State.reg_emitAll_init {s : State} {k : Nat} (a : Byte) (hlen : s.chain.len = s.n) (hk : k < s.n) :
    (s.emitAll (tokensOf s .init)).chain.reg k a =
      if 1 ≤ a.toNat ∧ a.toNat ≤ 8 ∧ a ≠ s.cfg.cmdNoop then 0x00
      else if a = s.cfg.cmdScanlimit ∧ a ≠ s.cfg.cmdNoop then s.cfg.dataScanlimitAll
      else if a = s.cfg.cmdShutdown ∧ a ≠ s.cfg.cmdNoop then s.cfg.dataShutdownOff
      else if a = s.cfg.cmdDisptest ∧ a ≠ s.cfg.cmdNoop then s.cfg.dataDisptestOff
      else s.chain.reg k a := by
  rw [State.reg_emitAll_tokensOf _ a hlen hk, groupsOf, List.foldl_append, List.foldl_map,
    foldl_digits (f := fun _ => 0x00) (by omega) fun v r => regAfterGroup_bcastGroup (cmdDigit r) 0x00 _ a v hk]
  simp only [List.foldl_cons, List.foldl_nil, regAfterGroup_bcastGroup _ _ _ a _ hk]

/-- Settles O32: with the default constants none of the registers is CMD_NOOP's, and no two commands name the same. -/
theorem initConfiguresChips : Obligations.InitConfiguresChips := by
  intro s hlen hdefaults
  refine ⟨_, exec_of_isChainCommand (i := .init) rfl s, fun k a hk => ?_⟩
  rw [State.reg_emitAll_init a hlen hk, hdefaults]
  by_cases hdisptest : a = 0x0F
  · subst hdisptest; rfl
  by_cases hshutdown : a = 0x0C
  · subst hshutdown; rfl
  by_cases hscanlimit : a = 0x0B
  · subst hscanlimit; rfl
  have hnoop : 1 ≤ a.toNat → a ≠ 0x00 := by rintro hpos rfl; exact absurd hpos (by decide)
  simp only [hdisptest, hshutdown, hscanlimit, false_and, if_false]
  exact if_congr (and_congr_right fun hpos => and_iff_left (hnoop hpos)) rfl rfl

end Sys2Proof.Machine
end

section
/-! PROOF. Reset and the hazards of 70_reset_and_hazards.md: reset at idle and inside a command, the stalled transport,
the order in which a REFDISP reaches the chips, and commands that see the writes of the commands before them. -/

namespace Sys2Proof.Machine

/-! ### Reset -/

/-- Construction with a block's own parameters succeeds (70_reset_and_hazards.md R210). -/
theorem State.construct_self (cfg : Config) (c : Chain) :
    State.construct cfg.n cfg.toOptions c = .ok (State.ofConfig cfg c) := by
  rw [State.construct, dif_neg cfg.n_pos.ne', dif_pos (show cfg.n ≤ nmax from cfg.n_le)]
  rfl

/-- A block that has been reset is ready for the next word (70_reset_and_hazards.md R210). -/
theorem State.applyReset_cmdReady (s : State) : s.applyReset.cmdReady = true := rfl

theorem State.applyReset_setHost (s : State) (rest : List HostEvent) :
    (s.setHost rest).applyReset = { s.applyReset with host := rest } := by
  simp only [State.applyReset_eq]
  rfl

/-- An event of another port than the word's, first in the list, is served whether the block is ready or not. -/
theorem step_of_not_word {s : State} {e : HostEvent} {rest : List HostEvent} (he : e.isWord = false)
    (h : s.host = e :: rest) : step s = serve e (s.setHost rest) :=
  step_eq_serve (by rw [h]; exact nextEvent_of_not_word _ _ he)

theorem step_of_reset {s : State} {presented : Option Word} {rest : List HostEvent}
    (h : s.host = .reset presented :: rest) : step s = .next { s.applyReset with host := rest } := by
  rw [← State.applyReset_setHost]
  exact step_of_not_word rfl h

/-- Settles O47: the fields after a reset are those of construction, with the release on the line if it was low. -/
theorem resetEffect : Obligations.ResetEffect := by
  intro s presented rest hhost
  refine ⟨_, step_of_reset hhost, ?_⟩
  rw [State.applyReset_eq]
  refine ⟨Memory.read_nil, rfl, rfl, rfl, rfl, rfl, rfl, rfl, State.construct_self _ _, rfl, fun hhigh => ?_,
    fun hlow => ?_⟩
  · simp [hhigh]
  · simp [hlow, Chain.observe]

/-! ### Reset inside a command -/

/-- Wherever the tokens are cut, a line that is low is raised by the next one (42_chain_protocol.md R134). -/
def ReleasesNext (ts : List Token) : Prop :=
  ∀ k, strobeAfter (ts.take k) true = false → ts[k]? = some .strobeRelease

theorem ReleasesNext.nil : ReleasesNext [] := fun k h => by simp at h

/-- In front of such tokens, one that keeps a high line high. -/
theorem ReleasesNext.cons {t : Token} {ts : List Token} (ht : t.levelAfter true = true) (h : ReleasesNext ts) :
    ReleasesNext (t :: ts)
  | 0, hlow => by simp at hlow
  | k + 1, hlow => h k (by rwa [List.take_succ_cons, strobeAfter_cons, ht] at hlow)

/-- In front of such tokens, a latch: the line is low between its two tokens only. -/
theorem ReleasesNext.latch {ts : List Token} (h : ReleasesNext ts) : ReleasesNext (latchTokens ++ ts)
  | 0, hlow => by simp at hlow
  | 1, _ => rfl
  | k + 2, hlow => h k hlow

theorem ReleasesNext.packets {ts : List Token} (h : ReleasesNext ts) (ps : List Packet) :
    ReleasesNext (ps.flatMap Packet.tokens ++ ts) := by
  induction ps with
  | nil => exact h
  | cons p ps ih =>
    rw [List.flatMap_cons, List.append_assoc, Packet.tokens]
    split <;> exact .cons rfl (.cons rfl ih)

theorem ReleasesNext.groups (gs : List (List Packet)) : ReleasesNext (gs.flatMap groupTokens) := by
  induction gs with
  | nil => exact .nil
  | cons g gs ih =>
    rw [List.flatMap_cons, groupTokens, List.append_assoc]
    exact ih.latch.packets g

/-- Inside a command the line is low only right before a release (70_reset_and_hazards.md R211). -/
theorem releasesNext_tokensOf (s : State) (i : Instr) : ReleasesNext (tokensOf s i) := by
  rw [tokensOf_eq_groups]
  exact .groups _

theorem State.proceed_setHost (s : State) (k : Nat) (rest : List HostEvent) :
    (s.setHost rest).proceed k = { s.proceed k with host := rest } := by
  simp only [State.proceed, State.emitAll_eq]
  rfl

theorem step_of_proceed {s : State} {k : Nat} {rest : List HostEvent} (h : s.host = .proceed k :: rest) :
    step s = .next { s.proceed k with host := rest } := by
  rw [← State.proceed_setHost]
  exact step_of_not_word rfl h

/-- A ready block accepts the command of the word that is next (30_encoding.md R60; log 6). -/
theorem step_of_accept {s : State} {w : Word} {i : Instr} {rest : List HostEvent} (h : s.host = .accept w :: rest)
    (hready : s.cmdReady = true) (hd : decode w = .ok i) :
    step s = .next { s with
      fb := fbAfter s i, rsp := rspAfter s i, seq := tokensOf s i, rspValid := responds i, host := rest } := by
  rw [step_of_ready hready h]
  exact acceptWord_eq_of_decode (s.setHost rest) hd

/-- A command accepted at a ready block, cut off after `k` of its tokens by a reset (70_reset_and_hazards.md R211). -/
theorem run_accept_proceed_reset {s : State} {w : Word} {i : Instr} {k : Nat} {presented : Option Word}
    {rest : List HostEvent} (h : s.host = .accept w :: .proceed k :: .reset presented :: rest)
    (hready : s.cmdReady = true) (hd : decode w = .ok i) :
    core.run 3 s = .next { (s.emitAll ((tokensOf s i).take k)).applyReset with host := rest } := by
  rw [run_succ_of_step (M := core) (step_of_accept h hready hd), run_succ_of_step (M := core) (step_of_proceed rfl),
    run_succ_of_step (M := core) (step_of_reset rfl)]
  simp only [Host.Core.run, State.applyReset_eq, State.proceed, State.emitAll_eq]

/-- Settles O48: the line is low after the first k tokens only if the next one is the latch's release, and that is the
token reset adds. -/
theorem resetDuringCommand : Obligations.ResetDuringCommand := by
  intro s w i k rest hhost hready hstrobe hd
  refine ⟨_, _, tokensOf s i, run_accept_proceed_reset hhost hready hd, exec_eq i s, State.emitAll_out _ _, ?_⟩
  rw [State.applyReset_eq, State.emitAll_strobe, State.emitAll_out, hstrobe]
  refine ⟨fun hhigh => by simp [hhigh], fun hlow => ?_, Memory.read_nil, rfl, rfl, rfl, rfl⟩
  have hnext : (tokensOf s i).take (k + 1) = (tokensOf s i).take k ++ [.strobeRelease] := by
    rw [List.take_add_one, releasesNext_tokensOf s i k hlow]
    rfl
  simp [hlow, hnext]

/-! ### The stalled transport -/

/-- Settles O50: outstanding tokens keep the port from being ready, and resets and tokens are served behind waiting
words. -/
theorem stalledTransportIsStuck : Obligations.StalledTransportIsStuck := by
  intro s hseq
  have hr : s.cmdReady = false := by simp [State.cmdReady, hseq]
  refine ⟨hr, fun t => step_keeps_words hr, fun hw => run_of_step_eq_self (step_of_words hr hw),
    fun words presented rest hw hhost => ⟨?_, s.applyReset_cmdReady⟩, fun words k rest hw hhost => ?_⟩
  · rw [← State.applyReset_setHost]
    exact step_behind_words hr hw rfl hhost
  · rw [← State.proceed_setHost]
    exact step_behind_words hr hw rfl hhost

/-! ### The rows of a REFDISP -/

theorem length_refrowTokens (s : State) (row : Nat) : (refrowTokens s.cfg s.fb row).length = 2 * s.cfg.n + 2 :=
  (length_tokensOf s (.refrow row)).trans (one_mul _)

/-- The first tokens of a REFDISP, up to the latch of its m-th row (42_chain_protocol.md R138). -/
theorem take_tokensOf_refdisp (s : State) {m : Nat} (hm : m ≤ 8) :
    (tokensOf s .refdisp).take (m * (2 * s.cfg.n + 2)) =
      ((List.range m).map (rowGroup s.cfg s.fb)).flatMap groupTokens := by
  have hsum : ((((List.range 8).map (refrowTokens s.cfg s.fb)).map List.length).take m).sum =
      m * (2 * s.cfg.n + 2) := by
    rw [List.map_map, show List.length ∘ refrowTokens s.cfg s.fb = _ from funext (length_refrowTokens s),
      List.map_const', List.length_range, List.take_replicate, List.sum_replicate, Nat.min_eq_left hm, smul_eq_mul]
  rw [← hsum, tokensOf, refdispTokens, List.flatMap_def, List.take_sum_flatten, ← List.map_take, List.take_range,
    Nat.min_eq_left hm, ← List.flatMap_def, List.flatMap_map]
  exact congrArg (List.flatMap · _) (funext (refrowTokens_eq s.cfg s.fb))

/-- Settles O35: the groups that have gone out are those of rows 0 to r, and each writes its own digit register. -/
theorem refdispShowsRowsInOrder : Obligations.RefdispShowsRowsInOrder := by
  intro s r _ hlen hr
  refine ⟨_, acceptWord_eq_of_decode s (decodeOfEncode .refdisp rfl), fun c y hc hy hnoop => ?_⟩
  have hdigit : (BitVec.ofNat 8 (y + 1)).toNat = y + 1 := (eq_cmdDigit_iff (by omega)).mp rfl
  have hle : y + 1 ≤ r + 1 ↔ y ≤ r := Nat.add_le_add_iff_right
  rw [State.proceed, State.emitAll_chain, take_tokensOf_refdisp s hr,
    Chain.reg_feed_groups _ _ _ (hlen ▸ hc) (by simp [length_rowGroup, hlen]), List.foldl_map,
    foldl_digits (f := fun row => rev8 (s.fb.read (c + s.n * row))) (by omega)
      fun v row => regAfterGroup_rowGroup s.fb row _ _ v hc]
  simp [hdigit, hle, hnoop]

/-! ### Writes are seen at once -/

@[simp] theorem State.putPixel_out (s : State) (x y : Nat) (v : Bool) : (s.putPixel x y v).out = s.out := rfl
@[simp] theorem State.shiftRight_out (s : State) : s.shiftRight.out = s.out := rfl

/-- REFROW sends every byte of its row (42_chain_protocol.md R137). -/
theorem xferLSB_mem_refrowTokens {cfg : Config} {c : Nat} (fb : Memory) (row : Nat) (hc : c < cfg.n) :
    Token.xferLSB (fb.read (c + cfg.n * row)) ∈ refrowTokens cfg fb row := by
  refine List.mem_append_left _ (List.mem_flatMap.mpr ⟨c, ?_, ?_⟩)
  · simpa using hc
  · simp [sendPixPair]

/-- REFDISP sends every byte of the framebuffer (42_chain_protocol.md R138). -/
theorem xferLSB_mem_refdispTokens {cfg : Config} {i : Nat} (fb : Memory) (hi : i < 8 * cfg.n) :
    Token.xferLSB (fb.read i) ∈ refdispTokens cfg fb := by
  refine List.mem_flatMap.mpr ⟨i / cfg.n, List.mem_range.mpr (Nat.div_lt_of_lt_mul (by rwa [Nat.mul_comm])), ?_⟩
  have hbyte := xferLSB_mem_refrowTokens fb (i / cfg.n) (Nat.mod_lt i cfg.n_pos)
  rwa [Nat.mod_add_div] at hbyte

/-- GETPIX after a write of the pixel responds the value written (70_reset_and_hazards.md R216). -/
theorem execAll_putpix_getpix {s : State} {x y : Nat} (v : Bool) (h : validPixel s.cfg x y = true) :
    ∃ t, execAll [putpix x y v, .getpix x y] s = .next t ∧ t.rsp = some (zextBit v) := by
  refine ⟨_, execAll_pair (exec_putpix_eq s x y v) (exec_getpix _ x y), ?_⟩
  simp [h, State.pixel_putPixel_self v h]

/-- Settles O55: each second command reads the framebuffer the first one leaves. -/
theorem writesAreSeenAtOnce : Obligations.WritesAreSeenAtOnce := by
  refine ⟨fun s x y hvalid => ⟨execAll_putpix_getpix true hvalid, execAll_putpix_getpix false hvalid, ?_, ?_⟩,
    fun s => ?_⟩
  · refine ⟨_, _, execAll_pair (exec_putpix_eq s x y true) (exec_fbrd _ _), rfl, ?_⟩
    rw [if_pos (show idx s.n x y < 8 * (s.putPixel x y true).n from idx_lt_of_validPixel hvalid)]
    exact State.pixel_putPixel_self true hvalid
  · refine ⟨_, (s.putPixel x y true).fb.read (idx s.n x y),
      execAll_pair (exec_putpix_eq s x y true) (exec_of_isChainCommand (i := .refrow y) rfl _), ?_,
      State.pixel_putPixel_self true hvalid⟩
    rw [State.emitAll_out, State.putPixel_out, List.drop_left]
    exact xferLSB_mem_refrowTokens _ y (chipIndex_lt (lt_of_xok (validPixel_iff.mp hvalid).1))
  · refine ⟨_, execAll_pair (exec_shr_eq s) (exec_of_isChainCommand (i := .refdisp) rfl _), fun i hi => ?_⟩
    rw [← shrByte_eq_topBit, ← s.shiftRight_read hi, State.emitAll_out, State.shiftRight_out, List.drop_left]
    exact xferLSB_mem_refdispTokens _ hi

end Sys2Proof.Machine
end
